-- ==== Sys2Proof/Word.lean ====
section
/-! DEFINITION. The widths of the block's values: 32-bit words, 8-bit bytes, 64-bit results (00_scope.md rules R7, R8, R10).
Every register and every bus value is a raw bit pattern, bit 0 the least significant. -/

namespace Sys2Proof

/-- A register, command word or operand: a raw 32-bit pattern (rules R7, R10). -/
abbrev Word := BitVec 32

/-- One byte of BUF (rule R34). -/
abbrev Byte := BitVec 8

/-- The result register's 64-bit pattern (rules R7, R19). -/
abbrev DWord := BitVec 64

end Sys2Proof
end

