-- ==== Sys2Proof/Syntax.lean ====
section
/-! DEFINITION. The commands of DKN-CMD, one constructor per row of spec/opcode_table.json (rules R3, R53). -/

namespace Sys2Proof

/-- A DKN-CMD command (rule R53). SWAP32, SWAP16, BTD and CRC32 carry nothing: their operands travel in OPA and OPB
(rule R51). MASK carries its three parameters as the plain integers of rule R54. -/
inductive Instr where
  /-- SWAP32 (rule R64). -/
  | swap32
  /-- SWAP16 (rule R65). -/
  | swap16
  /-- BTD (rule R68). -/
  | btd
  /-- CRC32 (rule R77). -/
  | crc32
  /-- MASK numBytes, bitsStored, unsigned (rules R54, R82). -/
  | mask (numBytes bitsStored : Nat) (isUnsigned : Bool)
deriving DecidableEq, Repr

end Sys2Proof
end

