-- ==== Sys2Proof/WellFormed.lean ====
section
/-! DEFINITION. Which commands have a word: MASK's integers must fit their fields (rules R52, R54, R60). -/

namespace Sys2Proof

/-- A command is well formed when its integers fit the encoding's fields: NB is 4 bits (0..15) and BS is 7 bits
(0..127) (rules R52, R60). -/
def Instr.wellFormed (i : Instr) : Bool :=
  match i with
  | .swap32 => true
  | .swap16 => true
  | .btd => true
  | .crc32 => true
  | .mask numBytes bitsStored _ => decide (numBytes ≤ 15) && decide (bitsStored ≤ 127)

end Sys2Proof
end

