-- ==== Sys2Proof/Decode.lean ====
section
/-! DEFINITION. Decoding and encoding of command words (30_encoding.md rules R51 to R63). A command is one 32-bit word;
there is no other length (rules R51, R59). -/

namespace Sys2Proof

/-- Why a word is illegal: the two clauses of rule R56. -/
inductive IllegalWord where
  /-- Clause 1: OP is 0x0 or 0x6..0xF. -/
  | unassignedOp
  /-- Clause 2: OP is assigned, and a bit of the row's Z field is set. -/
  | reservedBitSet
deriving DecidableEq, Repr

/-- What a command word decodes to: every word is one of the five commands or illegal (rules R57, R58). -/
inductive Decoded where
  | legal (i : Instr)
  | illegal (why : IllegalWord)
deriving DecidableEq, Repr

/-- The OP field, bits [3:0] (rule R52). -/
def opField (c : Word) : BitVec 4 := c.extractLsb' 0 4

/-- The NB field, bits [7:4] (rule R52). -/
def nbField (c : Word) : BitVec 4 := c.extractLsb' 4 4

/-- The BS field, bits [14:8] (rule R52). -/
def bsField (c : Word) : BitVec 7 := c.extractLsb' 8 7

/-- The U field, bit [15] (rule R52). -/
def uField (c : Word) : Bool := c.getLsbD 15

/-- Format N's Z field, bits [31:4] (rule R52). -/
def zFieldN (c : Word) : BitVec 28 := c.extractLsb' 4 28

/-- Format M's Z field, bits [31:16] (rule R52). -/
def zFieldM (c : Word) : BitVec 16 := c.extractLsb' 16 16

/-- A format N word: the command, if every bit of Z is zero (rule R56 clause 2). -/
def decodeFormatN (c : Word) (i : Instr) : Decoded :=
  if zFieldN c = 0 then .legal i else .illegal .reservedBitSet

/-- A format M word: MASK with its fields read as plain unsigned integers (rule R54), if every bit of Z is zero. -/
def decodeFormatM (c : Word) : Decoded :=
  if zFieldM c = 0 then .legal (.mask (nbField c).toNat (bsField c).toNat (uField c))
  else .illegal .reservedBitSet

/-- `Decode`, total on all 32-bit words (rule R58). -/
def decode (c : Word) : Decoded :=
  if opField c = 1 then decodeFormatN c .swap32
  else if opField c = 2 then decodeFormatN c .swap16
  else if opField c = 3 then decodeFormatN c .btd
  else if opField c = 4 then decodeFormatN c .crc32
  else if opField c = 5 then decodeFormatM c
  else .illegal .unassignedOp

/-- `Encode` (rules R60, R63): `0x5 | (nb << 4) | (bs << 8) | (u << 15)` for MASK. -/
def encode (i : Instr) : Word :=
  match i with
  | .swap32 => 0x00000001
  | .swap16 => 0x00000002
  | .btd => 0x00000003
  | .crc32 => 0x00000004
  | .mask numBytes bitsStored isUnsigned =>
    0x5#32 ||| (BitVec.ofNat 32 numBytes <<< 4) ||| (BitVec.ofNat 32 bitsStored <<< 8)
      ||| ((if isUnsigned then 1#32 else 0#32) <<< 15)

/-- The command a decoded word stands for, if it stands for one. -/
def Decoded.instr? (d : Decoded) : Option Instr :=
  match d with
  | .legal i => some i
  | .illegal _ => none

/-- The command word that a table word of `nbits` bits stands for: its bits above `nbits` are zero. -/
def tableWord (nbits w : Nat) : Word := BitVec.ofNat 32 (w % 2 ^ nbits)

/-- The command the decoder reads from a word of the opcode table (the table's bit 0 is the word's bit 0, rule R8). -/
def decodeTableWord (nbits w : Nat) : Option Instr := (decode (tableWord nbits w)).instr?

end Sys2Proof
end

