-- ==== Sys2Proof/Config.lean ====
section
/-! DEFINITION. What the platform fixes (BUF_SIZE and REG_BASE, rules R7 and R107) and the one free value of the
spec (MASK_DRAW, rules R7 and R87). LATENCY, the fourth parameter of rule R7, is the schedule `turns` of State. -/

namespace Sys2Proof

/-- The platform's parameters (rules R7, R107). They stand in State as plain data that no step changes, so that a
statement about every state is a statement about every BUF_SIZE and every REG_BASE (log entry 1). -/
structure Config where
  /-- BUF_SIZE: the number of bytes of BUF (rules R7, R34). -/
  bufSize : Nat
  /-- REG_BASE: the host address at which the 32-byte register window starts (rules R7, R16). -/
  regBase : Nat
deriving DecidableEq, Repr

/-- The range rule R7 gives BUF_SIZE: `0 ≤ BUF_SIZE ≤ 2^32`. -/
abbrev Config.wf (c : Config) : Prop := c.bufSize ≤ 2 ^ 32

/-- The parameters `State.reset` carries. DESIGN CHOICE (log entry 1): the spec leaves both OPEN; 16 is the size its
own programs use (95_test_vectors.md section 3). -/
def Config.initial : Config := { bufSize := 16, regBase := 0 }

/-- MASK_DRAW: the value of the `n`-th unspecified mask, a 32-bit draw under no law (rules R7, R87). It has no body:
nothing can be proved of it. A fresh index per drawing command makes a fresh draw per command (log entry 2). -/
opaque Config.maskDraw : Nat → Word

end Sys2Proof
end

