-- ==== Sys2Proof/Machine/State.lean ====
section
/-! DEFINITION. The state of the block, of BUF and of the two agents as plain data (10_state.md, 20_memory.md,
60_exceptions.md rule R99), the reasons a step can stop, and the state after reset (rule R33). -/

namespace Sys2Proof.Machine

/-- The faults: host actions to which the spec gives no meaning. A step from a state that carries one answers it and
nothing else, so it is sticky (rule R102). All three are safe: the model stops where hardware would go on. -/
inductive Fault where
  /-- A register access that is not a 32-bit access at a multiple of 4 (rules R42, R102). Raised by the host's turn; safe. -/
  | hostRegisterAccess
  /-- A host write to BUF while STATUS.BUSY = 1 (rules R45, R102, R110). Raised by the host's turn; safe. -/
  | hostBufWriteWhileBusy
  /-- A host write to an offset at or past BUF_SIZE, where BUF has no byte (rule R34; log entry 8). Raised by the
  host's turn; safe. -/
  | hostBufWritePastEnd
deriving DecidableEq, Repr

/-- The refusals. -/
inductive Refusal where
  /-- The instruction has no meaning in this model. Raised by `exec` alone, and by no arm of it now; safe. -/
  | notModelled (mnemonic : String)
deriving DecidableEq, Repr

/-- The error codes a command can complete with (rule R91). -/
inductive ErrCode where
  /-- ILLEGAL, 0x1: the command word is illegal (rule R92). -/
  | illegal
  /-- OOB, 0x2: the command would read BUF past BUF_SIZE (rule R93). -/
  | oob
deriving DecidableEq, Repr

/-- BUF's contents: (offset, byte) pairs in the canonical form `Memory.wf` of Ops.lean. -/
abbrev Memory := List Host.Cell

/-- The accepted command: its word and the values OPA and OPB had when it was accepted (rule R24). -/
structure InFlight where
  cmd : Word
  a : Word
  b : Word
deriving DecidableEq, Repr

/-- What the host can do (rules R11, R99). Register accesses name a host address and a width in bytes, so that the
accesses rules R22 and R42 speak of (outside the window, of another width, misaligned) can be written too. -/
inductive HostAction where
  /-- `WR`: a write of `v` to the `bytes` bytes at host address `addr`. -/
  | write (addr bytes : Nat) (v : Word)
  /-- `RD`: a read of the `bytes` bytes at host address `addr`. -/
  | read (addr bytes : Nat)
  /-- `WAIT`: read STATUS until STATUS.BUSY = 0. -/
  | wait
  /-- `BUF[offset] = b`: one byte of the host's store into BUF. -/
  | storeBuf (offset : Nat) (b : Byte)
  /-- Reset, which the host may ask for at any time (rule R99). -/
  | reset
deriving DecidableEq, Repr

/-- Who moves in a step: one of the two agents (rule R99), or the platform's reset input (rule R103). -/
inductive Turn where
  | host
  | unit
  | reset
deriving DecidableEq, Repr

/-- The state. The first five fields are the block's (rule R33), `buf` is the host-owned BUF (rule R34), `config` the
platform's parameters (rule R107), and the rest is what the host and the schedule still hold. -/
structure State where
  /-- OPA (rule R17). -/
  opa : Word
  /-- OPB (rule R17). -/
  opb : Word
  /-- RES: RESLO is bits [31:0], RESHI bits [63:32] (rule R19). -/
  res : DWord
  /-- STATUS as one word (rule R18); Flags.lean names its fields. -/
  status : Word
  /-- INFLIGHT (rule R24). -/
  inflight : Option InFlight
  /-- BUF's contents (rule R34). -/
  buf : Memory
  /-- BUF_SIZE and REG_BASE (rules R7, R107). -/
  config : Config
  /-- The host's remaining actions, the next one first: the host's program lies outside the block (rules R15, R99). -/
  host : List HostAction
  /-- LATENCY: the turns ahead, the next one first (rules R29, R94, R113). Where it ends, a command in flight completes
  before the host goes on (log entry 3). -/
  turns : List Turn
  /-- The values the host's register reads returned, oldest first (rule R114). -/
  reads : List Word
  /-- How many unspecified masks have been drawn: the index of the next draw (rule R87, log entry 2). -/
  draws : Nat
  /-- The recorded host-protocol fault (rule R102). -/
  hostFault : Option Fault
deriving DecidableEq, Repr

/-- The state right after reset on a platform with parameters `c`, with BUF as the host left it (rules R33, R103). -/
def State.resetWith (c : Config) (buf : Memory) : State where
  opa := 0
  opb := 0
  res := 0
  status := 0
  inflight := none
  buf := buf
  config := c
  host := []
  turns := []
  reads := []
  draws := 0
  hostFault := none

/-- The state after reset (rule R33), with the parameters of log entry 1 and nothing stored in BUF (log entry 4). -/
def State.reset : State := State.resetWith Config.initial []

end Sys2Proof.Machine
end

