-- ==== Sys2Proof/Machine/Flags.lean ====
section
/-! DEFINITION. The fields of STATUS (rule R18) and the codes of its ERR field (rule R91). A setter keeps every other
bit, the reserved ones among them. The block has no arithmetic or floating-point flags (rule R74). -/

namespace Sys2Proof.Machine

/-- STATUS.BUSY, bit [0]. -/
def statusBusy (st : Word) : Bool := st.getLsbD 0

/-- STATUS.ERR, bits [7:4]. -/
def statusErr (st : Word) : BitVec 4 := st.extractLsb' 4 4

/-- STATUS.DROP, bit [8]. -/
def statusDrop (st : Word) : Bool := st.getLsbD 8

/-- The reserved bits [31:9] and [3:1], which read as 0. -/
def statusReserved (st : Word) : BitVec 26 := st.extractLsb' 9 23 ++ st.extractLsb' 1 3

/-- `STATUS.BUSY <- v`. -/
def setBusy (v : Bool) (st : Word) : Word := st.extractLsb' 1 31 ++ BitVec.ofBool v

/-- `STATUS.ERR <- e`. -/
def setErr (e : BitVec 4) (st : Word) : Word := st.extractLsb' 8 24 ++ e ++ st.extractLsb' 0 4

/-- `STATUS.DROP <- v`. -/
def setDrop (v : Bool) (st : Word) : Word := st.extractLsb' 9 23 ++ BitVec.ofBool v ++ st.extractLsb' 0 8

/-- The ERR code of an error: ILLEGAL 0x1, OOB 0x2 (rule R91). -/
def errCode (e : ErrCode) : BitVec 4 :=
  match e with
  | .illegal => 0x1
  | .oob => 0x2

/-- `STATUS.BUSY` of a state. -/
def State.busy (s : State) : Bool := statusBusy s.status

end Sys2Proof.Machine
end

