-- ==== Sys2Proof/Machine/Operands.lean ====
section
/-! DEFINITION. The operand forms: OPA and OPB as unsigned BUF offsets and lengths (rules R34, R55), the zero
extension of a 32-bit result (rule R19), and the register window's addresses (rules R16, R22, R42). -/

namespace Sys2Proof.Machine

/-- An operand read as an unsigned offset or length (rules R34, R55). Sums of these never wrap (rule R9). -/
def asUnsigned (w : Word) : Nat := w.toNat

/-- `zext_64` of a 32-bit result (rule R19). -/
def zext64 (w : Word) : DWord := w.setWidth 64

/-- RESLO = RES[31:0] (rule R19). -/
def resLo (r : DWord) : Word := r.extractLsb' 0 32

/-- RESHI = RES[63:32] (rule R19). -/
def resHi (r : DWord) : Word := r.extractLsb' 32 32

/-- The window's offsets (rule R16). -/
def offCmd : Nat := 0x00
def offOpa : Nat := 0x04
def offOpb : Nat := 0x08
def offStatus : Nat := 0x0C
def offResLo : Nat := 0x10
def offResHi : Nat := 0x14

/-- The window's size: eight 32-bit slots (rule R16). -/
def windowBytes : Nat := 32

/-- Some byte of the access lies in the window. One that touches no byte of it is not an access to this block
(rule R22). -/
def touchesWindow (c : Config) (addr bytes : Nat) : Bool :=
  decide (addr < c.regBase + windowBytes) && decide (c.regBase < addr + bytes)

/-- The access is a 32-bit one at an offset that is a multiple of 4 (rule R42). -/
def legalAccess (c : Config) (addr bytes : Nat) : Bool :=
  decide (bytes = 4) && decide (c.regBase ≤ addr) && decide ((addr - c.regBase) % 4 = 0)

end Sys2Proof.Machine
end

