-- ==== Sys2Proof/Machine/Ops.lean ====
section
/-! DEFINITION. The shared operations: BUF's bytes (20_memory.md), a command's life (accept, drop, completion with a
result or with an error: rules R26, R27, R30, R90), reset (rule R103) and the register window (rules R16 to R23). -/

namespace Sys2Proof.Machine

/-! ### BUF -/

/-- What an unlisted byte of BUF reads as. DESIGN CHOICE (log entry 4): the spec leaves BUF's first contents to the
host. -/
def unlistedByte : Byte := 0

/-- The canonical form: offsets strictly rising, and no entry equal to what an unlisted offset reads as. -/
abbrev Memory.wf (m : Memory) : Prop :=
  m.Pairwise (fun x y => x.1 < y.1) ∧ ∀ x ∈ m, x.2 ≠ unlistedByte

/-- `BUF[a]`. -/
def Memory.read (m : Memory) (a : Nat) : Byte :=
  match m with
  | [] => unlistedByte
  | (k, v) :: rest => if a = k then v else Memory.read rest a

/-- The host's store of one byte, keeping the canonical form. -/
def Memory.write (m : Memory) (a : Nat) (b : Byte) : Memory :=
  match m with
  | [] => if b = unlistedByte then [] else [(a, b)]
  | (k, v) :: rest =>
    if a < k then (if b = unlistedByte then (k, v) :: rest else (a, b) :: (k, v) :: rest)
    else if a = k then (if b = unlistedByte then rest else (a, b) :: rest)
    else (k, v) :: Memory.write rest a b

/-- `MemRead(addr, n)`: n bytes from `addr` on, the first byte most significant (rules R9, R39). It is used only where
`inBuf` holds. -/
def memRead (m : Memory) (addr : Nat) : (n : Nat) → BitVec (8 * n)
  | 0 => 0#0
  | n + 1 => memRead m addr n ++ m.read (addr + n)

/-- `addr + n ≤ BUF_SIZE`, with the sum on unbounded integers (rule R37). -/
def inBuf (c : Config) (addr n : Nat) : Bool := decide (addr + n ≤ c.bufSize)

/-! ### A command's life -/

/-- Accept: a write of `w` to CMD while BUSY = 0, one indivisible step (rule R26). It clears the error of the command
before, which is all the return there is from an error (rule R96). -/
def accept (w : Word) (s : State) : State :=
  { s with
    inflight := some { cmd := w, a := s.opa, b := s.opb }
    status := setDrop false (setErr 0 (setBusy true s.status)) }

/-- Drop: a write to CMD while BUSY = 1 sets STATUS.DROP and does nothing else (rules R27, R100). -/
def dropCmd (s : State) : State := { s with status := setDrop true s.status }

/-- Completion with a 64-bit result (rule R30, `Ok r`). -/
def completeOk (r : DWord) (s : State) : State :=
  { s with res := r, status := setBusy false (setErr 0 s.status), inflight := none }

/-- `raise E`: completion with an error, which is all the exception there is: ERR gets the code, RES stays
(rule R30 `Err code`, rules R89, R90). -/
def raiseErr (e : ErrCode) (s : State) : State :=
  { s with status := setBusy false (setErr (errCode e) s.status), inflight := none }

/-- The completion step for an outcome of `Execute` (rule R30). -/
def complete (o : Except ErrCode DWord) (s : State) : State :=
  match o with
  | .ok r => completeOk r s
  | .error e => raiseErr e s

/-- A meaning runs on the command in flight. With none in flight completion is not enabled (rule R29), and nothing
changes. -/
def onInFlight (s : State) (k : InFlight → State) : Host.Outcome State Fault Refusal :=
  match s.inflight with
  | none => .next s
  | some f => .next (k f)

/-! ### Reset -/

/-- Reset puts every piece of block state into its value of rule R33, abandons a command in flight, and touches
nothing of the host's (rules R103, R104). -/
def resetBlock (s : State) : State :=
  { s with opa := 0, opb := 0, res := 0, status := 0, inflight := none }

/-! ### The register window -/

/-- A 32-bit read at window offset `off` (rules R16, R20, R22): CMD and the reserved slots read zero. -/
def regRead (s : State) (off : Nat) : Word :=
  if off = offOpa then s.opa
  else if off = offOpb then s.opb
  else if off = offStatus then s.status
  else if off = offResLo then resLo s.res
  else if off = offResHi then resHi s.res
  else 0

/-- A write to CMD: accepted when BUSY = 0, dropped when BUSY = 1 (rule R20). -/
def cmdWrite (w : Word) (s : State) : State := if s.busy then dropCmd s else accept w s

/-- A 32-bit write at window offset `off` (rules R17, R20, R22, R28): read-only and reserved slots ignore it. -/
def regWrite (off : Nat) (v : Word) (s : State) : State :=
  if off = offCmd then cmdWrite v s
  else if off = offOpa then { s with opa := v }
  else if off = offOpb then { s with opb := v }
  else s

end Sys2Proof.Machine
end

