-- ==== Sys2Proof/Machine/Double.lean ====
section
/-! DEFINITION. The double reconstructor: BTD (41_double_reconstructor.md). -/

namespace Sys2Proof.Machine

/-- The sign bit `s = D[63]` (rule R69). -/
def doubleSign (d : DWord) : Bool := d.getLsbD 63

/-- The exponent `e = D[62:52]` (rule R69). -/
def doubleExp (d : DWord) : BitVec 11 := d.extractLsb' 52 11

/-- The mantissa `m = D[51:0]` (rule R69). -/
def doubleMant (d : DWord) : BitVec 52 := d.extractLsb' 0 52

/-- +0.0, the one zero BTD answers (rule R70). -/
def plusZero : DWord := 0x0000000000000000

/-- +infinity (rule R71). -/
def plusInf : DWord := 0x7FF0000000000000

/-- -infinity (rule R71). -/
def minusInf : DWord := 0xFFF0000000000000

/-- `BytesToDouble(D)` (rule R68, in the form rule R73 allows for the normal exponents): exponent zero is flushed to
+0.0, exponent 0x7FF collapses to the infinity of the sign, and a normal pattern is itself. -/
def bytesToDouble (d : DWord) : DWord :=
  if doubleExp d = 0x000 then plusZero
  else if doubleExp d = 0x7FF then (if doubleSign d then minusInf else plusInf)
  else d

/-- The real value of a normal binary64 pattern: `(-1)^s × 2^(e-1023) × (1 + m / 2^52)` (rule R72, 93 G3). The machine
does not use it: BTD answers patterns, and rule R72 is stated of their values. -/
def binary64Value (r : DWord) : ℚ :=
  (if doubleSign r then -1 else 1) * (2 : ℚ) ^ ((doubleExp r).toNat - 1023 : Int)
    * (1 + ((doubleMant r).toNat : ℚ) / 2 ^ 52)

/-- The outcome of BTD at offset `a`: OOB is decided before any byte is read (rules R37, R68, R93). -/
def btdOutcome (s : State) (a : Nat) : Except ErrCode DWord :=
  if inBuf s.config a 8 then .ok (bytesToDouble (memRead s.buf a 8)) else .error .oob

/-- BTD (rule R68). -/
def execBtd (s : State) : Host.Outcome State Fault Refusal :=
  onInFlight s fun f => complete (btdOutcome s (asUnsigned f.a)) s

end Sys2Proof.Machine
end

