-- ==== Sys2Proof/Machine/Mask.lean ====
section
/-! DEFINITION. The bit-mask builder: MASK (43_bit_mask_builder.md). -/

namespace Sys2Proof.Machine

/-- The raw shift count of step 2, an integer: `(4 - nb) * 8 + (nb * 8 - bs)` (rules R82, R83). -/
def maskRawShift (numBytes bitsStored : Nat) : Int :=
  (4 - (numBytes : Int)) * 8 + ((numBytes : Int) * 8 - (bitsStored : Int))

/-- The shift count, the mathematical residue of the raw count modulo 32 (rule R84). -/
def maskShift (numBytes bitsStored : Nat) : Nat := (maskRawShift numBytes bitsStored % 32).toNat

/-- Step 2: `0xFFFFFFFF >>> sh` (rule R82). -/
def maskBits (numBytes bitsStored : Nat) : Word := 0xFFFFFFFF#32 >>> maskShift numBytes bitsStored

/-- Step 3's ceiling mask, for the four valid values of numBytes (rule R85). -/
def maskCeiling (numBytes : Nat) : Option Word :=
  if numBytes = 1 then some 0x000000FF
  else if numBytes = 2 then some 0x0000FFFF
  else if numBytes = 4 then some 0xFFFFFFFF
  else if numBytes = 8 then some 0xFFFFFFFF
  else none

/-- `Mask(nb, bs, u, dm)` (rule R82). -/
def maskValue (numBytes bitsStored : Nat) (isUnsigned : Bool) (dm : Word) : Word :=
  if isUnsigned then
    match maskCeiling numBytes with
    | some ceiling => maskBits numBytes bitsStored &&& ceiling
    | none => dm
  else 0xFFFFFFFF

/-- The result is a draw: u = 1 and nb is none of 1, 2, 4, 8 (rule R87). -/
def maskDraws (numBytes : Nat) (isUnsigned : Bool) : Bool := isUnsigned && (maskCeiling numBytes).isNone

/-- A drawing command takes the next draw; every other command leaves the draws alone (rules R86, R87; log entry 2). -/
def takeDraw (numBytes : Nat) (isUnsigned : Bool) (s : State) : State :=
  { s with draws := if maskDraws numBytes isUnsigned then s.draws + 1 else s.draws }

/-- MASK (rule R82). -/
def execMask (numBytes bitsStored : Nat) (isUnsigned : Bool) (s : State) : Host.Outcome State Fault Refusal :=
  onInFlight s fun _ =>
    complete (.ok (zext64 (maskValue numBytes bitsStored isUnsigned (Config.maskDraw s.draws))))
      (takeDraw numBytes isUnsigned s)

end Sys2Proof.Machine
end

