-- ==== Sys2Proof/Machine/Swap.lean ====
section
/-! DEFINITION. The byte-order swapper: SWAP32 and SWAP16 (40_byte_order_swapper.md). -/

namespace Sys2Proof.Machine

/-- `Swap32(a) = a[7:0] ++ a[15:8] ++ a[23:16] ++ a[31:24]` (rule R64). -/
def swap32 (a : Word) : Word :=
  a.extractLsb' 0 8 ++ a.extractLsb' 8 8 ++ a.extractLsb' 16 8 ++ a.extractLsb' 24 8

/-- `Swap16(a) = sext_32(a[7:0] ++ a[15:8])` (rule R65; 32 bits is the native width, 92_eei_decisions.md D12). -/
def swap16 (a : Word) : Word := (a.extractLsb' 0 8 ++ a.extractLsb' 8 8 : BitVec 16).signExtend 32

/-- SWAP32 (rule R64). -/
def execSwap32 (s : State) : Host.Outcome State Fault Refusal :=
  onInFlight s fun f => complete (.ok (zext64 (swap32 f.a))) s

/-- SWAP16 (rule R65). -/
def execSwap16 (s : State) : Host.Outcome State Fault Refusal :=
  onInFlight s fun f => complete (.ok (zext64 (swap16 f.a))) s

end Sys2Proof.Machine
end

