-- ==== Sys2Proof/Machine/Dispatch.lean ====
section
/-! DEFINITION. `exec`: the completion of a decoded command, one arm per command (rule R31). -/

namespace Sys2Proof.Machine

def exec (i : Instr) (s : State) : Host.Outcome State Fault Refusal :=
  match i with
  | .swap32 => Sys2Proof.Machine.execSwap32 s
  | .swap16 => Sys2Proof.Machine.execSwap16 s
  | .btd => Sys2Proof.Machine.execBtd s
  | .crc32 => Sys2Proof.Machine.execCrc32 s
  | .mask numBytes bitsStored isUnsigned => Sys2Proof.Machine.execMask numBytes bitsStored isUnsigned s

end Sys2Proof.Machine
end

