-- ==== Sys2Proof/Machine/Agents.lean ====
section
/-! DEFINITION. What each agent does in its turn (60_exceptions.md rules R94, R99): the host performs its next action,
the unit completes the command in flight. -/

namespace Sys2Proof.Machine

/-! ### The host -/

/-- An action to which the spec gives no meaning is recorded, and has no effect (rule R102). -/
def recordFault (f : Fault) (s : State) : State := { s with hostFault := some f }

/-- The host keeps the value a register read returned (rules R11, R114). -/
def recordRead (v : Word) (s : State) : State := { s with reads := s.reads ++ [v] }

/-- A host register write (rules R16, R22, R42). -/
def hostWrite (addr bytes : Nat) (v : Word) (s : State) : State :=
  if touchesWindow s.config addr bytes then
    if legalAccess s.config addr bytes then regWrite (addr - s.config.regBase) v s
    else recordFault .hostRegisterAccess s
  else s

/-- A host register read: it changes nothing of the block (rules R16, R22, R23, R42). -/
def hostRead (addr bytes : Nat) (s : State) : State :=
  if touchesWindow s.config addr bytes then
    if legalAccess s.config addr bytes then recordRead (regRead s (addr - s.config.regBase)) s
    else recordFault .hostRegisterAccess s
  else s

/-- A host store of one byte into BUF: never while BUSY = 1 (rule R45), and only where BUF has a byte (rule R34). -/
def hostStoreBuf (offset : Nat) (b : Byte) (s : State) : State :=
  if s.busy then recordFault .hostBufWriteWhileBusy s
  else if offset < s.config.bufSize then { s with buf := s.buf.write offset b }
  else recordFault .hostBufWritePastEnd s

/-- One host action (rules R11, R99). A WAIT that gets its turn has seen BUSY = 0 (`hostTurn`). -/
def hostAct (act : HostAction) (s : State) : State :=
  match act with
  | .write addr bytes v => hostWrite addr bytes v s
  | .read addr bytes => hostRead addr bytes s
  | .wait => s
  | .storeBuf offset b => hostStoreBuf offset b s
  | .reset => resetBlock s

/-- The host's program moves on: `rest` is what it still has to do. -/
def advanceHost (rest : List HostAction) (s : State) : State := { s with host := rest }

/-- The host's turn: its next action, in program order, one at a time (rule R46). A WAIT that reads BUSY = 1 stays the
next action: it reads STATUS again in the host's next turn (rule R11). A host with nothing left to do does nothing. -/
def hostTurn (s : State) : State :=
  match s.host with
  | [] => s
  | act :: rest =>
    if decide (act = .wait) && s.busy then s else hostAct act (advanceHost rest s)

/-! ### The unit -/

/-- The completion of the command word `c`: decoding happens here (rules R26, R31). An illegal word raises ILLEGAL
and reads nothing else (rules R56, R92). -/
def runWord (c : Word) (s : State) : Host.Outcome State Fault Refusal :=
  match decode c with
  | .legal i => exec i s
  | .illegal _ => .next (raiseErr .illegal s)

/-- The unit's turn: completion, enabled exactly when a command is in flight (rules R29, R30). -/
def unitTurn (s : State) : Host.Outcome State Fault Refusal :=
  match s.inflight with
  | none => .next s
  | some f => runWord f.cmd s

/-! ### Who moves -/

/-- The next turn: the schedule's, and where the schedule has ended, the unit's while a command is in flight, so that
every accepted command completes (rules R29, R113; log entry 3). -/
def nextTurn (s : State) : Turn :=
  match s.turns with
  | t :: _ => t
  | [] => if s.inflight.isSome then .unit else .host

/-- The schedule moves on by one turn. -/
def popTurn (s : State) : State := { s with turns := s.turns.tail }

/-- One step of the whole: a recorded host-protocol fault stops it for good (rule R102), a reset overrides every
other event of its instant (rule R104), and otherwise one agent moves (rule R94). -/
def takeTurn (s : State) : Host.Outcome State Fault Refusal :=
  match s.hostFault with
  | some f => .fault f
  | none =>
    match nextTurn s with
    | .reset => .next (resetBlock (popTurn s))
    | .host => .next (hostTurn (popTurn s))
    | .unit => unitTurn (popTurn s)

/-- `s` as it stands when the word `w` has just been accepted and the unit has the next turn. -/
def withCommand (w : Word) (s : State) : State :=
  { accept w s with turns := .unit :: s.turns, hostFault := none }

end Sys2Proof.Machine
end

