-- ==== Sys2Proof/Machine/Step.lean ====
section
/-! DEFINITION. One step of the block and its host, and where a step finds its next command. -/

namespace Sys2Proof.Machine

/-- One step (rules R29, R94, R99, R102, R104). -/
def step (s : State) : Host.Outcome State Fault Refusal := takeTurn s

/-- The block fetches nothing (rules R15, R49): the next command is the one in INFLIGHT. `s` with the table word `w`
accepted, and the unit to move (log entry 9). -/
def State.withFetchWord (s : State) (nbits w : Nat) : State := withCommand (tableWord nbits w) s

end Sys2Proof.Machine
end

