-- ==== Sys2Proof/Machine/Assembler.lean ====
section
/-! DEFINITION. The spec's notations: the host actions WR, RD and BUF of rule R11, the command syntax of rule R60, read
from characters, and the host macros of rule R61. The machine runs none of this text: a host's program is the list of
actions these definitions answer. -/

namespace Sys2Proof.Machine

/-! ### Host actions (rule R11) -/

/-- `WR <reg>, <v32>` for the register at window offset `off`. -/
def wr (c : Config) (off : Nat) (v : Word) : HostAction := .write (c.regBase + off) 4 v

/-- `RD <reg>` for the register at window offset `off`. -/
def rd (c : Config) (off : Nat) : HostAction := .read (c.regBase + off) 4

/-- `BUF[o..] = b0 b1 …`: the bytes one by one, in increasing offset order. -/
def storeBytes (offset : Nat) (bytes : List Byte) : List HostAction :=
  match bytes with
  | [] => []
  | b :: rest => .storeBuf offset b :: storeBytes (offset + 1) rest

/-! ### Command syntax (rule R60) -/

def dropSpaces (cs : List Char) : List Char :=
  match cs with
  | [] => []
  | c :: rest => if c = ' ' then dropSpaces rest else c :: rest

/-- The text without the spaces around it. -/
def trim (cs : List Char) : List Char := (dropSpaces (dropSpaces cs).reverse).reverse

/-- The value of a digit of base `base` (10, or 16 with letters in either case). -/
def digitValue (base : Nat) (c : Char) : Option Nat :=
  let n := c.toNat
  let v := if 48 ≤ n ∧ n ≤ 57 then n - 48
    else if 65 ≤ n ∧ n ≤ 70 then n - 55
    else if 97 ≤ n ∧ n ≤ 102 then n - 87
    else base
  if v < base then some v else none

def digitsValue (base : Nat) (cs : List Char) (acc : Nat) : Option Nat :=
  match cs with
  | [] => some acc
  | c :: rest =>
    match digitValue base c with
    | some d => digitsValue base rest (acc * base + d)
    | none => none

/-- A decimal integer, or a hexadecimal one written `0x…` (rule R60). -/
def parseNumber (cs : List Char) : Option Nat :=
  match cs with
  | [] => none
  | '0' :: 'x' :: rest => if rest = [] then none else digitsValue 16 rest 0
  | _ => digitsValue 10 cs 0

/-- `u` is unsigned (U = 1), `s` is signed (U = 0) (rule R60). -/
def parseSign (cs : List Char) : Option Bool :=
  match cs with
  | ['u'] => some true
  | ['s'] => some false
  | _ => none

/-- The pieces of a text between its commas. -/
def splitCommas (cs : List Char) : List (List Char) :=
  match cs with
  | [] => [[]]
  | c :: rest =>
    if c = ',' then [] :: splitCommas rest
    else match splitCommas rest with
      | [] => [[c]]
      | piece :: pieces => (c :: piece) :: pieces

/-- MASK's operands. Values that do not fit their fields are rejected (rule R60). -/
def parseMask (operands : List (List Char)) : Option Instr :=
  match operands with
  | [nbText, bsText, signText] =>
    match parseNumber (trim nbText), parseNumber (trim bsText), parseSign (trim signText) with
    | some nb, some bs, some u =>
      if (Instr.mask nb bs u).wellFormed then some (.mask nb bs u) else none
    | _, _, _ => none
  | _ => none

/-- One line of the spec's assembler: one command, its mnemonic in upper case (rule R60). -/
def parseCommand (line : List Char) : Option Instr :=
  match trim line with
  | ['S', 'W', 'A', 'P', '3', '2'] => some .swap32
  | ['S', 'W', 'A', 'P', '1', '6'] => some .swap16
  | ['B', 'T', 'D'] => some .btd
  | ['C', 'R', 'C', '3', '2'] => some .crc32
  | 'M' :: 'A' :: 'S' :: 'K' :: ' ' :: rest => parseMask (splitCommas rest)
  | _ => none

/-- The word a line assembles to. -/
def assemble (line : List Char) : Option Word := (parseCommand line).map encode

/-! ### Host macros (rule R61) -/

/-- `swap32 v`. -/
def swap32Macro (c : Config) (v : Word) : List HostAction :=
  [wr c offOpa v, wr c offCmd (encode .swap32), .wait, rd c offResLo]

/-- `swap16 v`. -/
def swap16Macro (c : Config) (v : Word) : List HostAction :=
  [wr c offOpa v, wr c offCmd (encode .swap16), .wait, rd c offResLo]

/-- `btd off`. -/
def btdMacro (c : Config) (off : Word) : List HostAction :=
  [wr c offOpa off, wr c offCmd (encode .btd), .wait, rd c offStatus, rd c offResHi, rd c offResLo]

/-- `crc32 off, len`. -/
def crc32Macro (c : Config) (off len : Word) : List HostAction :=
  [wr c offOpa off, wr c offOpb len, wr c offCmd (encode .crc32), .wait, rd c offStatus, rd c offResLo]

/-- `mask nb, bs, u|s`. Its word is the word of rule R60, whose assembler rejects values that do not fit their fields;
what the macro is for such values rule R61 leaves open. DESIGN CHOICE (log entry 17): it has no expansion. -/
def maskMacro (c : Config) (numBytes bitsStored : Nat) (isUnsigned : Bool) : Option (List HostAction) :=
  if (Instr.mask numBytes bitsStored isUnsigned).wellFormed then
    some [wr c offCmd (encode (.mask numBytes bitsStored isUnsigned)), .wait, rd c offResLo]
  else none

end Sys2Proof.Machine
end

