-- ==== Sys2Proof/Safety.lean ====
section
/-! DEFINITION. The invariant every state of a run meets, the frames the statements use, and what it is for a run to have
ended. -/

namespace Sys2Proof.Safety

open Sys2Proof.Machine

/-- RES holds a 32-bit result zero-extended, or an output of BTD: an infinity or a normal binary64, never a NaN,
never a subnormal, never -0.0 (rules R19, R74). -/
abbrev resWf (r : DWord) : Prop :=
  resHi r = 0 ∨ r = plusInf ∨ r = minusInf ∨ (doubleExp r ≠ 0 ∧ doubleExp r ≠ 0x7FF)

/-- STATUS: the reserved bits read as 0, ERR is one of the three codes ever produced (rules R18, R91), and it is OK
while a command is in flight, since accept clears it (rule R26). -/
abbrev statusWf (st : Word) : Prop :=
  statusReserved st = 0 ∧ (statusErr st = 0 ∨ statusErr st = 1 ∨ statusErr st = 2) ∧
    (statusBusy st = true → statusErr st = 0)

/-- BUF's contents are in canonical form, and every listed byte lies below BUF_SIZE (rule R34). -/
abbrev bufWf (c : Config) (m : Memory) : Prop := m.wf ∧ ∀ x ∈ m, x.1 < c.bufSize

/-- The invariant: the parameters are in range (rule R7), BUF and STATUS and RES are well formed, and BUSY = 1 exactly
when a command is in flight (rule R25). -/
structure Inv (s : State) : Prop where
  config : s.config.wf
  buf : bufWf s.config s.buf
  busy : s.busy = s.inflight.isSome
  status : statusWf s.status
  res : resWf s.res

/-- The frame of a completion (rules R30, R90): the command is gone and BUSY is 0, and nothing but RES, STATUS.ERR and
the index of the next draw can differ; in particular every byte of BUF reads as before. -/
abbrev completionFrame (s t : State) : Prop :=
  statusBusy t.status = false ∧ t.inflight = none ∧
    t.opa = s.opa ∧ t.opb = s.opb ∧
    statusDrop t.status = statusDrop s.status ∧ statusReserved t.status = statusReserved s.status ∧
    t.buf = s.buf ∧ (∀ a, t.buf.read a = s.buf.read a) ∧ t.config = s.config ∧
    t.host = s.host ∧ t.turns = s.turns ∧ t.reads = s.reads ∧ t.hostFault = s.hostFault

/-- The command completed with a result (rule R30, `Ok r`): ERR is OK. RES is said beside it. -/
abbrev completedOk (s t : State) : Prop := completionFrame s t ∧ statusErr t.status = 0x0

/-- The command completed with the error of this code (rules R30 `Err code`, R90): RES and the draws are unchanged. -/
abbrev completedErr (code : BitVec 4) (s t : State) : Prop :=
  completionFrame s t ∧ statusErr t.status = code ∧ t.res = s.res ∧ t.draws = s.draws

/-- Every field of the state but the host's remaining actions is as before. -/
abbrev onlyHostMoved (rest : List HostAction) (s t : State) : Prop := t = { s with host := rest }

/-- The step of `s` is no reset, no completion and no register write: the host reads, polls, stores into BUF or idles,
or the unit has nothing to do. -/
abbrev stepWritesNoRegister (s : State) : Prop :=
  nextTurn s ≠ .reset ∧ (nextTurn s = .unit → s.inflight = none) ∧
    ∀ act rest, nextTurn s = .host → s.host = act :: rest →
      act = .wait ∨ (∃ addr bytes, act = .read addr bytes) ∨ ∃ off b, act = .storeBuf off b

/-- The host actions that have a meaning while BUSY = 1 and are no reset: WAIT, and the 32-bit reads and writes of the
window's slots (rules R42, R45, R102). -/
abbrev actionHasMeaningWhileBusy (c : Config) (act : HostAction) : Prop :=
  act = .wait ∨ ∃ off, off < 32 ∧ off % 4 = 0 ∧
    (act = .read (c.regBase + off) 4 ∨ ∃ v, act = .write (c.regBase + off) 4 v)

/-- The end of a run (rule R114): the host has executed its last action, STATUS.BUSY = 0, and no host-protocol fault
has been recorded. -/
abbrev runEnded (s : State) : Prop := s.host = [] ∧ s.busy = false ∧ s.hostFault = none

end Sys2Proof.Safety
end

