-- ==== Sys2Proof/Certificates/Slice0/Obligations.lean ====
section
/-! DEFINITION. The statements about the model, for the provers. Bits and fields of command words are said in plain
arithmetic on the word's number, and results in the spec's own formulas, so that a statement does not repeat the
definition it is about. -/

open Sys2Proof Sys2Proof.Machine Sys2Proof.Safety

/-! ### Encoding -/

/-- 30_encoding.md rule R63: the encoder's words, and what the spec derives of them, `Decode(Encode(x)) = x` for every
command and `Encode(Decode(c)) = c` for every legal word. -/
def Obligations.EncoderInvertsDecoder : Prop :=
  encode .swap32 = 0x00000001 ∧ encode .swap16 = 0x00000002 ∧ encode .btd = 0x00000003 ∧ encode .crc32 = 0x00000004 ∧
  (∀ (nb bs : Nat) (u : Bool), nb ≤ 15 → bs ≤ 127 →
    (encode (.mask nb bs u)).toNat = 0x5 ||| (nb <<< 4) ||| (bs <<< 8) ||| (u.toNat <<< 15)) ∧
  (∀ i : Instr, i.wellFormed = true → decode (encode i) = .legal i) ∧
  (∀ (c : Word) (i : Instr), decode c = .legal i → i.wellFormed = true ∧ encode i = c)

/-- 30_encoding.md rule R58: each word decodes to the one command its OP and its zero bits say, every other word is
illegal, and, as the spec derives, exactly 4100 words are legal. -/
def Obligations.DecodeReadsEveryWordByItsFields : Prop :=
  (∀ c : Word,
    (decode c = .legal .swap32 ↔ c.toNat % 16 = 1 ∧ c.toNat / 16 = 0) ∧
    (decode c = .legal .swap16 ↔ c.toNat % 16 = 2 ∧ c.toNat / 16 = 0) ∧
    (decode c = .legal .btd ↔ c.toNat % 16 = 3 ∧ c.toNat / 16 = 0) ∧
    (decode c = .legal .crc32 ↔ c.toNat % 16 = 4 ∧ c.toNat / 16 = 0) ∧
    (∀ (nb bs : Nat) (u : Bool), decode c = .legal (.mask nb bs u) ↔
      c.toNat % 16 = 5 ∧ c.toNat / 65536 = 0 ∧ nb = c.toNat / 16 % 16 ∧ bs = c.toNat / 256 % 128 ∧
        u = decide (c.toNat / 32768 % 2 = 1)) ∧
    ((∃ why, decode c = .illegal why) ↔
      ¬ (1 ≤ c.toNat % 16 ∧ c.toNat % 16 ≤ 4 ∧ c.toNat / 16 = 0) ∧ ¬ (c.toNat % 16 = 5 ∧ c.toNat / 65536 = 0))) ∧
  ∃ legal : List Word, legal.Nodup ∧ legal.length = 4100 ∧ ∀ c, c ∈ legal ↔ ∃ i, decode c = .legal i

/-- 30_encoding.md rule R62: the worked encodings the spec derives, spelling by spelling and word by word. -/
def Obligations.WorkedEncodings : Prop :=
  assemble "MASK 2, 12, u".toList = some 0x00008C25 ∧ decode 0x00008C25 = .legal (.mask 2 12 true) ∧
  assemble "MASK 1, 8, u".toList = some 0x00008815 ∧ decode 0x00008815 = .legal (.mask 1 8 true) ∧
  assemble "MASK 4, 32, s".toList = some 0x00002045 ∧ decode 0x00002045 = .legal (.mask 4 32 false) ∧
  assemble "MASK 8, 64, u".toList = some 0x0000C085 ∧ decode 0x0000C085 = .legal (.mask 8 64 true) ∧
  assemble "MASK 3, 12, u".toList = some 0x00008C35 ∧ decode 0x00008C35 = .legal (.mask 3 12 true) ∧
  decode 0x00000000 = .illegal .unassignedOp ∧ decode 0x00000011 = .illegal .reservedBitSet ∧
  decode 0x00018C25 = .illegal .reservedBitSet ∧ decode 0x00000006 = .illegal .unassignedOp

/-- "No spelling produces an illegal word" (30_encoding.md rule R60): the word a line assembles to decodes to the command
it spells. How lines are read is the model's choice in its details: log entry 14. -/
def Obligations.AssemblerSpellsNoIllegalWord : Prop :=
  ∀ (line : List Char) (w : Word), assemble line = some w →
    ∃ i, parseCommand line = some i ∧ i.wellFormed = true ∧ decode w = .legal i

/-- R92: ILLEGAL is raised by exactly the words of rule R56, whatever the operands, BUF and BUF_SIZE. -/
def Obligations.IllegalRaisedExactlyByIllegalWords : Prop :=
  ∀ (s : State) (f : InFlight), s.inflight = some f →
    ∃ t, unitTurn s = .next t ∧
      (statusErr t.status = 0x1 ↔
        (f.cmd.toNat % 16 = 0 ∨ 6 ≤ f.cmd.toNat % 16) ∨
        (1 ≤ f.cmd.toNat % 16 ∧ f.cmd.toNat % 16 ≤ 4 ∧ f.cmd.toNat / 16 ≠ 0) ∨
        (f.cmd.toNat % 16 = 5 ∧ f.cmd.toNat / 65536 ≠ 0))

/-- R56: which words are illegal; an illegal word is accepted like any other, its completion sets ERR to ILLEGAL,
leaves RES, and is the same whatever the operands and BUF hold; and every word has a defined outcome. -/
def Obligations.IllegalWordIsAcceptedAndOnlySetsErr : Prop :=
  (∀ c : Word, (∃ why, decode c = .illegal why) ↔
    ((c.toNat % 16 = 0 ∨ 6 ≤ c.toNat % 16) ∨
      (1 ≤ c.toNat % 16 ∧ c.toNat % 16 ≤ 4 ∧ c.toNat / 16 ≠ 0) ∨
      (c.toNat % 16 = 5 ∧ c.toNat / 65536 ≠ 0))) ∧
  (∀ (c : Word) (s : State), s.busy = false →
    (cmdWrite c s).inflight = some { cmd := c, a := s.opa, b := s.opb } ∧ (cmdWrite c s).busy = true) ∧
  (∀ (s : State) (f : InFlight) (why : IllegalWord), s.inflight = some f → decode f.cmd = .illegal why →
    ∃ t, unitTurn s = .next t ∧ completedErr 0x1 s t ∧
      ∀ (a b : Word) (m : Memory) (x y : Word),
        unitTurn { s with inflight := some { cmd := f.cmd, a := a, b := b }, buf := m, opa := x, opb := y } =
          .next { t with buf := m, opa := x, opb := y }) ∧
  (∀ (s : State) (f : InFlight), s.inflight = some f → ∃ t, unitTurn s = .next t)

/-! ### The register window and the host's actions -/

/-- The read column of the register map (10_state.md rules R16, R17, R19, R20): a 32-bit read at each of the eight
offsets returns the register, or zero for CMD and the reserved slots, and changes nothing else. -/
def Obligations.RegisterReadsFollowTheMap : Prop :=
  ∀ (s : State) (rest : List HostAction) (off : Nat) (v : Word),
    s.host = .read (s.config.regBase + off) 4 :: rest →
    ((off = 0x00 ∧ v = 0) ∨ (off = 0x04 ∧ v = s.opa) ∨ (off = 0x08 ∧ v = s.opb) ∨ (off = 0x0C ∧ v = s.status) ∨
      (off = 0x10 ∧ v.toNat = s.res.toNat % 2 ^ 32) ∨ (off = 0x14 ∧ v.toNat = s.res.toNat / 2 ^ 32) ∨
      (off = 0x18 ∧ v = 0) ∨ (off = 0x1C ∧ v = 0)) →
    hostTurn s = { s with host := rest, reads := s.reads ++ [v] }

/-- 10_state.md rule R23, first sentence: a host read of any address and width leaves the block, BUF and the command in
flight alone, the host keeps the values it has, and the recorded fault stays as it was unless the read is an access to
this block that is not a 32-bit one at a multiple of 4. What then happens, and which reads are accesses to this block, is
the model's choice: log entries 10 and 12. -/
def Obligations.HostReadsHaveNoSideEffect : Prop :=
  ∀ (s : State) (rest : List HostAction) (addr bytes : Nat), s.host = .read addr bytes :: rest →
    ∃ t, hostTurn s = t ∧ t = { s with host := rest, reads := t.reads, hostFault := t.hostFault } ∧
      (∃ vs, vs.length ≤ 1 ∧ t.reads = s.reads ++ vs) ∧
      (addr + bytes ≤ s.config.regBase ∨ s.config.regBase + 32 ≤ addr ∨
          (bytes = 4 ∧ s.config.regBase ≤ addr ∧ (addr - s.config.regBase) % 4 = 0) →
        t.hostFault = s.hostFault)

/-- 10_state.md rule R23, second sentence: two reads of one slot return the same value, however many steps lie between
them, if none of those is a register write, a completion or a reset. (The rule does not name the reset, which of course
changes what a register reads as.) -/
def Obligations.ReadingTwiceReturnsTheSameValue : Prop :=
  ∀ (path : Nat → State) (n off : Nat) (rest rest' : List HostAction), off < 32 → off % 4 = 0 →
    (path 0).host = .read ((path 0).config.regBase + off) 4 :: rest →
    (path n).host = .read ((path n).config.regBase + off) 4 :: rest' →
    (∀ k < n, step (path k) = .next (path (k + 1)) ∧ stepWritesNoRegister (path k)) →
    ∃ v, (hostTurn (path 0)).reads = (path 0).reads ++ [v] ∧ (hostTurn (path n)).reads = (path n).reads ++ [v]

/-- R26: accept. -/
def Obligations.CommandWriteIsAcceptedWhenIdle : Prop :=
  ∀ (s : State) (w : Word) (rest : List HostAction),
    s.host = .write (s.config.regBase + 0x00) 4 w :: rest → s.busy = false →
    ∃ t, hostTurn s = t ∧
      t = { s with host := rest, inflight := some { cmd := w, a := s.opa, b := s.opb }, status := t.status } ∧
      statusBusy t.status = true ∧ statusErr t.status = 0x0 ∧ statusDrop t.status = false ∧
      statusReserved t.status = statusReserved s.status

/-- R27: drop. -/
def Obligations.CommandWriteIsDroppedWhenBusy : Prop :=
  ∀ (s : State) (w : Word) (rest : List HostAction),
    s.host = .write (s.config.regBase + 0x00) 4 w :: rest → s.busy = true →
    ∃ t, hostTurn s = t ∧ t = { s with host := rest, status := t.status } ∧ statusDrop t.status = true ∧
      statusBusy t.status = true ∧ statusErr t.status = statusErr s.status ∧
      statusReserved t.status = statusReserved s.status

/-- R28: a write to OPA or OPB replaces all 32 bits, busy or not, and changes nothing of the command in flight, whose
completion is the one it would have been. -/
def Obligations.OperandWritesLeaveTheCommandInFlight : Prop :=
  (∀ (s : State) (v : Word) (rest : List HostAction),
    s.host = .write (s.config.regBase + 0x04) 4 v :: rest → hostTurn s = { s with host := rest, opa := v }) ∧
  (∀ (s : State) (v : Word) (rest : List HostAction),
    s.host = .write (s.config.regBase + 0x08) 4 v :: rest → hostTurn s = { s with host := rest, opb := v }) ∧
  (∀ (s : State) (x y : Word), ∃ t, unitTurn s = .next t ∧
    unitTurn { s with opa := x, opb := y } = .next { t with opa := x, opb := y })

/-- 10_state.md rule R22: writes to the read-only registers and to the reserved slots are ignored, the reserved slots
read zero, and an access outside the window is not an access to this block. That the host keeps no value of a read outside
the window is the model's choice: log entry 10. -/
def Obligations.ReadOnlyReservedAndOutsideAccesses : Prop :=
  (∀ (s : State) (v : Word) (off : Nat) (rest : List HostAction),
    (off = 0x0C ∨ off = 0x10 ∨ off = 0x14 ∨ off = 0x18 ∨ off = 0x1C) →
    s.host = .write (s.config.regBase + off) 4 v :: rest → onlyHostMoved rest s (hostTurn s)) ∧
  (∀ (s : State) (off : Nat) (rest : List HostAction), (off = 0x18 ∨ off = 0x1C) →
    s.host = .read (s.config.regBase + off) 4 :: rest →
    hostTurn s = { s with host := rest, reads := s.reads ++ [0x00000000] }) ∧
  (∀ (s : State) (addr bytes : Nat) (v : Word) (rest : List HostAction),
    (addr + bytes ≤ s.config.regBase ∨ s.config.regBase + 32 ≤ addr) →
    (s.host = .write addr bytes v :: rest ∨ s.host = .read addr bytes :: rest) →
    onlyHostMoved rest s (hostTurn s))

/-- R42, R45, R102, R110 of 20_memory.md, 60_exceptions.md and 70_reset_and_hazards.md: the two host actions without a
meaning are recorded and have no effect; the record is sticky, and a state that carries it is never final. That an access
straddling an end of the window (or one of no bytes inside it) is one of them is the model's choice, log entry 10, and so
is the record's form, a field that every later step answers, log entry 12; the last clause also covers the model's own
fault of log entry 8. -/
def Obligations.MeaninglessHostActionsAreRecorded : Prop :=
  (∀ (s : State) (addr bytes : Nat) (v : Word) (rest : List HostAction),
    addr < s.config.regBase + 32 → s.config.regBase < addr + bytes →
    ¬ (bytes = 4 ∧ s.config.regBase ≤ addr ∧ (addr - s.config.regBase) % 4 = 0) →
    (s.host = .write addr bytes v :: rest ∨ s.host = .read addr bytes :: rest) →
    hostTurn s = { s with host := rest, hostFault := some .hostRegisterAccess }) ∧
  (∀ (s : State) (off : Nat) (b : Byte) (rest : List HostAction),
    s.busy = true → s.host = .storeBuf off b :: rest →
    hostTurn s = { s with host := rest, hostFault := some .hostBufWriteWhileBusy }) ∧
  (∀ (s : State) (f : Fault), s.hostFault = some f → step s = .fault f ∧ ¬ runEnded s)

/-- A host store past BUF_SIZE is recorded as a fault of its own and stores nothing. The model's choice: log entry 8. -/
def Obligations.HostStorePastTheEndIsRecorded : Prop :=
  ∀ (s : State) (off : Nat) (b : Byte) (rest : List HostAction),
    s.busy = false → s.config.bufSize ≤ off → s.host = .storeBuf off b :: rest →
    hostTurn s = { s with host := rest, hostFault := some .hostBufWritePastEnd }

/-- A host store of one byte while BUSY = 0: that byte reads as stored, every other byte as before, the canonical form
is kept, and nothing else changes. -/
def Obligations.HostStoreChangesOneByte : Prop :=
  ∀ (s : State) (off : Nat) (b : Byte) (rest : List HostAction),
    s.buf.wf → s.busy = false → off < s.config.bufSize → s.host = .storeBuf off b :: rest →
    hostTurn s = { s with host := rest, buf := (hostTurn s).buf } ∧ (hostTurn s).buf.wf ∧
      ∀ x, (hostTurn s).buf.read x = if x = off then b else s.buf.read x

/-- WAIT stays while BUSY = 1 and is done when BUSY = 0; it changes nothing else. That its reads are not kept among
the host's values is the model's choice: log entry 7. -/
def Obligations.WaitEndsWhenBusyIsZero : Prop :=
  ∀ (s : State) (rest : List HostAction), s.host = .wait :: rest →
    (s.busy = true → hostTurn s = s) ∧ (s.busy = false → onlyHostMoved rest s (hostTurn s))

/-! ### SWAP32 and SWAP16 -/

/-- R64: SWAP32 completes with the four bytes reversed, RESHI zero, and nothing else changed. -/
def Obligations.Swap32ReversesTheFourBytes : Prop :=
  (∀ (s : State) (f : InFlight), s.inflight = some f →
    ∃ t, exec .swap32 s = .next t ∧ completedOk s t ∧ t.draws = s.draws ∧ resHi t.res = 0 ∧
      (resLo t.res).extractLsb' 24 8 = f.a.extractLsb' 0 8 ∧ (resLo t.res).extractLsb' 16 8 = f.a.extractLsb' 8 8 ∧
      (resLo t.res).extractLsb' 8 8 = f.a.extractLsb' 16 8 ∧ (resLo t.res).extractLsb' 0 8 = f.a.extractLsb' 24 8) ∧
  swap32 0x12345678 = 0x78563412 ∧ swap32 0xFFFFFFFF = 0xFFFFFFFF ∧ swap32 0xA5A5A5A5 = 0xA5A5A5A5

/-- R65: SWAP16 completes with the two low bytes swapped and the result sign-extended to 32 bits, RESHI zero even when
RESLO is negative, and nothing else changed. -/
def Obligations.Swap16SwapsAndSignExtends : Prop :=
  (∀ (s : State) (f : InFlight), s.inflight = some f →
    ∃ t, exec .swap16 s = .next t ∧ completedOk s t ∧ t.draws = s.draws ∧ resHi t.res = 0 ∧
      (resLo t.res).extractLsb' 8 8 = f.a.extractLsb' 0 8 ∧ (resLo t.res).extractLsb' 0 8 = f.a.extractLsb' 8 8 ∧
      (resLo t.res).extractLsb' 16 16 = (if f.a.getLsbD 7 then 0xFFFF else 0x0000) ∧
      (resLo t.res).toInt = ((resLo t.res).extractLsb' 0 16).toInt) ∧
  swap16 0x000000FF = 0xFFFFFF00 ∧ swap16 0x00000102 = 0x00000201

/-- The five laws of the swapper that the spec derives (40_byte_order_swapper.md rule R66). -/
def Obligations.SwapperLaws : Prop :=
  (∀ x, swap32 (swap32 x) = x) ∧
  (∀ x y, swap32 (x ^^^ y) = swap32 x ^^^ swap32 y ∧ swap32 (x &&& y) = swap32 x &&& swap32 y ∧
    swap32 (x ||| y) = swap32 x ||| swap32 y) ∧
  (∀ x, swap16 (swap16 x) = (x.extractLsb' 0 16).signExtend 32 ∧
    swap16 x = ((swap16 x).extractLsb' 0 16).signExtend 32) ∧
  (∀ x, (swap16 x).extractLsb' 0 16 = (swap32 x).extractLsb' 16 16) ∧
  (∀ x y, x.extractLsb' 0 16 = y.extractLsb' 0 16 → swap16 x = swap16 y) ∧
  (∀ x, (swap16 x).extractLsb' 16 16 = if x.getLsbD 7 then 0xFFFF else 0x0000)

/-- What the spec derives in 40_byte_order_swapper.md rule R67: a SWAP32 or SWAP16 command completes with ERR = 0, and
two of them with the same latched OPA have the same RES, whatever BUF and everything else hold. -/
def Obligations.SwapsDependOnTheLatchedOpaAlone : Prop :=
  ∀ (s s' : State) (f f' : InFlight) (i : Instr),
    i = .swap32 ∨ i = .swap16 →
    s.inflight = some f → s'.inflight = some f' → decode f.cmd = .legal i → decode f'.cmd = .legal i → f.a = f'.a →
    ∃ t t', unitTurn s = .next t ∧ unitTurn s' = .next t' ∧ statusErr t.status = 0x0 ∧ statusErr t'.status = 0x0 ∧
      t.res = t'.res

/-! ### BTD -/

/-- MemRead is big-endian (rules R9, R39): byte k of the n bytes read is the k-th from the top. -/
def Obligations.MemReadIsBigEndian : Prop :=
  ∀ (m : Memory) (addr n k : Nat), k < n →
    (memRead m addr n).extractLsb' (8 * (n - 1 - k)) 8 = m.read (addr + k)

/-- 41_double_reconstructor.md rule R69: the sign, exponent and mantissa of the eight bytes, byte by byte, and, as the
spec derives, that they cover the 64 bits once. -/
def Obligations.DoubleFieldsComeFromTheBytes : Prop :=
  ∀ (m : Memory) (a : Nat),
    doubleSign (memRead m a 8) = (m.read a).getLsbD 7 ∧
    doubleExp (memRead m a 8) =
      ((((m.read a).extractLsb' 0 7).setWidth 11 <<< 4) ||| ((m.read (a + 1)).extractLsb' 4 4).setWidth 11) ∧
    doubleExp (memRead m a 8) = (m.read a).extractLsb' 0 7 ++ (m.read (a + 1)).extractLsb' 4 4 ∧
    doubleMant (memRead m a 8) =
      (m.read (a + 1)).extractLsb' 0 4 ++ m.read (a + 2) ++ m.read (a + 3) ++ m.read (a + 4) ++ m.read (a + 5)
        ++ m.read (a + 6) ++ m.read (a + 7) ∧
    memRead m a 8 = BitVec.ofBool (doubleSign (memRead m a 8)) ++ doubleExp (memRead m a 8)
      ++ doubleMant (memRead m a 8)

/-- R70: BTD in bounds with exponent zero completes with +0.0, all 64 bits zero, whatever the sign and the mantissa. -/
def Obligations.BtdFlushesExponentZero : Prop :=
  ∀ (s : State) (f : InFlight), s.inflight = some f → f.a.toNat + 8 ≤ s.config.bufSize →
    ((memRead s.buf f.a.toNat 8).extractLsb' 52 11).toNat = 0 →
    ∃ t, exec .btd s = .next t ∧ completedOk s t ∧ t.draws = s.draws ∧ t.res = 0x0000000000000000

/-- 41_double_reconstructor.md rule R71: BTD in bounds with exponent 0x7FF completes with the infinity of the sign,
whatever the mantissa: no result is a NaN. The last clause, that the result keeps the input's sign and exponent bits and
clears its mantissa, is what the spec marks there as derived from R71 and R69. -/
def Obligations.BtdCollapsesExponentAllOnes : Prop :=
  ∀ (s : State) (f : InFlight), s.inflight = some f → f.a.toNat + 8 ≤ s.config.bufSize →
    ((memRead s.buf f.a.toNat 8).extractLsb' 52 11).toNat = 0x7FF →
    ∃ t, exec .btd s = .next t ∧ completedOk s t ∧ t.draws = s.draws ∧
      ((memRead s.buf f.a.toNat 8).getLsbD 63 = false → t.res = 0x7FF0000000000000) ∧
      ((memRead s.buf f.a.toNat 8).getLsbD 63 = true → t.res = 0xFFF0000000000000) ∧
      t.res = (memRead s.buf f.a.toNat 8).extractLsb' 63 1 ++ 0x7FF#11 ++ 0#52

/-- What the spec derives in 41_double_reconstructor.md rule R73: BTD in bounds is the identity on every normal
pattern. -/
def Obligations.BtdIsTheIdentityOnNormalPatterns : Prop :=
  ∀ (s : State) (f : InFlight), s.inflight = some f → f.a.toNat + 8 ≤ s.config.bufSize →
    1 ≤ ((memRead s.buf f.a.toNat 8).extractLsb' 52 11).toNat →
    ((memRead s.buf f.a.toNat 8).extractLsb' 52 11).toNat ≤ 0x7FE →
    ∃ t, exec .btd s = .next t ∧ completedOk s t ∧ t.draws = s.draws ∧ t.res = memRead s.buf f.a.toNat 8

/-- 41_double_reconstructor.md rule R72, with the bounds the spec derives: for a normal exponent BTD's result is exactly
`(-1)^s × (2^52 + m) × 2^(e - 1075)`, with no rounding, and its absolute value lies in `[2^(e-1023), 2^(e-1022))`. -/
def Obligations.BtdNormalResultIsExact : Prop :=
  ∀ (s : State) (f : InFlight) (sign : Bool) (e m : Nat), s.inflight = some f → f.a.toNat + 8 ≤ s.config.bufSize →
    sign = (memRead s.buf f.a.toNat 8).getLsbD 63 →
    e = ((memRead s.buf f.a.toNat 8).extractLsb' 52 11).toNat →
    m = ((memRead s.buf f.a.toNat 8).extractLsb' 0 52).toNat →
    1 ≤ e → e ≤ 0x7FE →
    ∃ t, exec .btd s = .next t ∧ doubleExp t.res ≠ 0 ∧ doubleExp t.res ≠ 0x7FF ∧ 2 ^ 52 + m < 2 ^ 53 ∧
      binary64Value t.res = (if sign then -1 else 1) * ((2 : ℚ) ^ 52 + m) * (2 : ℚ) ^ ((e : Int) - 1075) ∧
      (2 : ℚ) ^ ((e : Int) - 1023) ≤ |binary64Value t.res| ∧ |binary64Value t.res| < (2 : ℚ) ^ ((e : Int) - 1022)

/-- BTD's outputs are exactly +0.0, the two infinities and every normal binary64: no NaN, no subnormal, no -0.0
(41_double_reconstructor.md rule R74). -/
def Obligations.BtdOutputSet : Prop :=
  ∀ r : DWord, (∃ d, bytesToDouble d = r) ↔
    r = 0x0000000000000000 ∨ r = 0x7FF0000000000000 ∨ r = 0xFFF0000000000000 ∨
      (1 ≤ (r.extractLsb' 52 11).toNat ∧ (r.extractLsb' 52 11).toNat ≤ 0x7FE)

/-! ### CRC32 -/

/-- R75: every entry of the table is eight rounds of the reflected polynomial, from `zext_32(n)`. -/
def Obligations.CrcTableIsGenerated : Prop :=
  ∀ n : Byte, crcTable n =
    (fun v : Word => if v.getLsbD 0 then 0xEDB88320 ^^^ (v >>> 1) else v >>> 1)^[8] (n.setWidth 32)

/-- The 256 entries the spec derives (42_crc32_engine.md rule R76) are those of the generation, two of them the
source's own, and the table is linear. -/
def Obligations.CrcTableIsTheListedRom : Prop :=
  crcRom.length = 256 ∧ (∀ n : Byte, crcRom[n.toNat]? = some (crcTable n)) ∧
  crcTable 1 = 0x77073096 ∧ crcTable 2 = 0xEE0E612C ∧ crcTable 0 = 0 ∧ crcTable 128 = 0xEDB88320 ∧
  (∀ x y : Byte, crcTable (x ^^^ y) = crcTable x ^^^ crcTable y)

/-- R77: CRC32 completes with the complement of the table-driven fold over its range, in increasing offset order;
exactly a non-empty range past BUF_SIZE completes with OOB instead, RES unchanged. -/
def Obligations.Crc32FoldsItsRange : Prop :=
  (∀ (s : State) (f : InFlight), s.inflight = some f →
    (f.b.toNat = 0 ∨ f.a.toNat + f.b.toNat ≤ s.config.bufSize →
      ∃ t, exec .crc32 s = .next t ∧ completedOk s t ∧ t.draws = s.draws ∧ resHi t.res = 0 ∧
        resLo t.res = ~~~ ((List.range f.b.toNat).foldl
          (fun (acc : Word) (i : Nat) => (acc >>> 8) ^^^ crcTable ((acc ^^^ (s.buf.read (f.a.toNat + i)).setWidth 32).setWidth 8))
          (0xFFFFFFFF : Word))) ∧
    (0 < f.b.toNat → f.a.toNat + f.b.toNat > s.config.bufSize →
      ∃ t, exec .crc32 s = .next t ∧ completedErr 0x2 s t)) ∧
  crc32 [(0, 0x31), (1, 0x32), (2, 0x33), (3, 0x34), (4, 0x35), (5, 0x36), (6, 0x37), (7, 0x38), (8, 0x39)] 0 9 =
    0xCBF43926

/-- What the spec derives in 42_crc32_engine.md rule R79: the empty range reads no byte and gives 0x00000000, whatever
the offset, even past BUF_SIZE. -/
def Obligations.Crc32OfTheEmptyRange : Prop :=
  ∀ (s : State) (f : InFlight), s.inflight = some f → f.b = 0 →
    ∃ t, exec .crc32 s = .next t ∧ completedOk s t ∧ t.res = zext64 (~~~ 0xFFFFFFFF) ∧ t.res = 0x0000000000000000

/-- What the spec derives in 42_crc32_engine.md rule R80: the one-byte range, and that a byte's bit 0 is folded first,
one byte into the accumulator being eight rounds that each take the next bit, from bit 0 up, into the low bit. -/
def Obligations.Crc32OfOneByte : Prop :=
  (∀ (s : State) (f : InFlight) (x : Byte), s.inflight = some f → f.b = 1 → f.a.toNat + 1 ≤ s.config.bufSize →
    x = s.buf.read f.a.toNat →
    ∃ t, exec .crc32 s = .next t ∧ completedOk s t ∧ resHi t.res = 0 ∧
      resLo t.res = ~~~ (0x00FFFFFF#32 ^^^ crcTable (x ^^^ 0xFF))) ∧
  ~~~ (0x00FFFFFF#32 ^^^ crcTable (0x00 ^^^ 0xFF)) = 0xD202EF8D ∧
  (∀ (acc : Word) (x : Byte), crcUpdate acc x =
    (List.range 8).foldl (fun (v : Word) (j : Nat) =>
      if (v ^^^ (if x.getLsbD j then 1 else 0)).getLsbD 0
      then 0xEDB88320 ^^^ ((v ^^^ (if x.getLsbD j then 1 else 0)) >>> 1)
      else (v ^^^ (if x.getLsbD j then 1 else 0)) >>> 1) acc)

/-- The table-driven engine refines the bit-serial CRC-32 (rules R75, R77, R80): RESLO is the complement of the shift
register fed the bits of the range one by one, byte after byte, each byte from bit 0 up. -/
def Obligations.Crc32RefinesTheBitSerialRegister : Prop :=
  ∀ (s : State) (f : InFlight), s.inflight = some f →
    (f.b.toNat = 0 ∨ f.a.toNat + f.b.toNat ≤ s.config.bufSize) →
    ∃ t, exec .crc32 s = .next t ∧ completedOk s t ∧
      resLo t.res = ~~~ ((List.range (8 * f.b.toNat)).foldl
        (fun (v : Word) (k : Nat) =>
          if (v.getLsbD 0 ^^ (s.buf.read (f.a.toNat + k / 8)).getLsbD (k % 8))
          then 0xEDB88320 ^^^ (v >>> 1) else v >>> 1)
        (0xFFFFFFFF : Word))

/-! ### MASK -/

/-- 43_bit_mask_builder.md rules R83 and R84, with what the spec derives there: the shift amount is 32 - bs for every nb,
the count is its residue modulo 32, and step 2 yields `2^t - 1` with `t = ((bs + 31) mod 32) + 1`. -/
def Obligations.MaskShiftCount : Prop :=
  ∀ nb bs : Nat, maskRawShift nb bs = 32 - (bs : Int) ∧ (maskShift nb bs : Int) = (32 - (bs : Int)) % 32 ∧
    maskShift nb bs ≤ 31 ∧ (maskBits nb bs).toNat = 2 ^ ((bs + 31) % 32 + 1) - 1 ∧
    1 ≤ (bs + 31) % 32 + 1 ∧ (bs + 31) % 32 + 1 ≤ 32

/-- 43_bit_mask_builder.md rules R82, R85 and R88, in the closed form the spec derives: for u = 1 and nb one of 1, 2, 4,
8, MASK completes with the low `t` bits of rule R84 under the byte-width ceiling, for every bs, above the container
too; RESHI is 0 and nothing is drawn. -/
def Obligations.MaskUnsignedValidNumBytes : Prop :=
  (∀ (s : State) (f : InFlight) (nb bs : Nat), s.inflight = some f → (nb = 1 ∨ nb = 2 ∨ nb = 4 ∨ nb = 8) →
    ∃ t, exec (.mask nb bs true) s = .next t ∧ completedOk s t ∧ t.draws = s.draws ∧ resHi t.res = 0 ∧
      (∀ k, k < 32 → (resLo t.res).getLsbD k = (decide (k < (bs + 31) % 32 + 1) && decide (k < 8 * nb))) ∧
      (1 ≤ bs → bs ≤ 8 * nb → bs ≤ 32 → (resLo t.res).toNat = 2 ^ bs - 1) ∧
      (nb = 8 → 33 ≤ bs → bs ≤ 64 → (resLo t.res).toNat = 2 ^ (bs - 32) - 1)) ∧
  (∀ dm, maskValue 8 48 true dm = 0x0000FFFF ∧ maskValue 8 64 true dm = 0xFFFFFFFF ∧
    maskValue 1 12 true dm = 0x000000FF ∧ maskValue 2 33 true dm = 0x00000001)

/-- R86: for u = 0 MASK completes with 0xFFFFFFFF for every nb and bs, and takes no draw. -/
def Obligations.MaskSignedIsAllOnes : Prop :=
  ∀ (s : State) (f : InFlight) (nb bs : Nat), s.inflight = some f →
    ∃ t, exec (.mask nb bs false) s = .next t ∧ completedOk s t ∧ t.draws = s.draws ∧
      t.res = 0x00000000FFFFFFFF

/-- 43_bit_mask_builder.md rule R87: for u = 1 and nb none of 1, 2, 4, 8, MASK completes with ERR = 0, RESHI = 0 and
RESLO a draw. Nothing is said of the draw's value. That a fresh draw is `Config.maskDraw` at an index which a drawing
command advances is the model's choice: log entry 2. -/
def Obligations.MaskUnspecifiedNumBytesDraws : Prop :=
  ∀ (s : State) (f : InFlight) (nb bs : Nat), s.inflight = some f →
    ¬ (nb = 1 ∨ nb = 2 ∨ nb = 4 ∨ nb = 8) →
    ∃ t, exec (.mask nb bs true) s = .next t ∧ completedOk s t ∧ resHi t.res = 0x00000000 ∧
      resLo t.res = Config.maskDraw s.draws ∧ t.draws = s.draws + 1

/-! ### Completion and errors -/

/-- The frame of every command (10_state.md rule R30): with a command in flight, exec answers a next state for every command, and that state
differs only in RES, STATUS.BUSY, STATUS.ERR, INFLIGHT and the index of the next draw. -/
def Obligations.EveryCommandCompletesWithinItsFrame : Prop :=
  ∀ (i : Instr) (s : State) (f : InFlight), s.inflight = some f →
    ∃ t, exec i s = .next t ∧ completionFrame s t ∧
      t = { s with res := t.res, status := t.status, inflight := none, draws := t.draws } ∧
      (statusErr t.status = 0x0 ∨ (statusErr t.status = 0x2 ∧ t.res = s.res ∧ t.draws = s.draws))

/-- R90: a command that raises an error completes, sets ERR to its code and BUSY to 0, and changes nothing else. -/
def Obligations.ErrorsArePrecise : Prop :=
  ∀ (s : State) (f : InFlight), s.inflight = some f →
    ∃ t, unitTurn s = .next t ∧
      (statusErr t.status ≠ 0x0 →
        (statusErr t.status = 0x1 ∨ statusErr t.status = 0x2) ∧
        completedErr (statusErr t.status) s t ∧ t = { s with status := t.status, inflight := none })

/-- R93: OOB is raised exactly by a BTD with `a + 8 > BUF_SIZE` and by a CRC32 with `b > 0` and `a + b > BUF_SIZE`,
both sums on unbounded integers. -/
def Obligations.OobRaisedExactlyPastTheEnd : Prop :=
  ∀ (s : State) (f : InFlight), s.inflight = some f →
    ∃ t, unitTurn s = .next t ∧
      (statusErr t.status = 0x2 ↔
        (decode f.cmd = .legal .btd ∧ f.a.toNat + 8 > s.config.bufSize) ∨
        (decode f.cmd = .legal .crc32 ∧ 0 < f.b.toNat ∧ f.a.toNat + f.b.toNat > s.config.bufSize))

/-- 10_state.md rule R31: a completion is a function of the command word, the two latched operands, BUF's bytes, BUF_SIZE and one draw: two
states that agree on those complete with the same ERR, and with the same RES if they succeed. The two states agree on the
draw itself, whatever their draw indices are; that a completion's draw is `Config.maskDraw` at the state's index is the
model's choice: log entry 2. -/
def Obligations.ExecuteDependsOnItsInputsAlone : Prop :=
  ∀ (s s' : State) (f : InFlight), s.inflight = some f → s'.inflight = some f →
    (∀ a, s.buf.read a = s'.buf.read a) → s.config.bufSize = s'.config.bufSize →
    Config.maskDraw s.draws = Config.maskDraw s'.draws →
    ∃ t t', unitTurn s = .next t ∧ unitTurn s' = .next t' ∧ statusErr t.status = statusErr t'.status ∧
      (statusErr t.status = 0x0 → t.res = t'.res)

/-! ### Reset -/

/-- 10_state.md rule R33 and 70_reset_and_hazards.md rule R104: a reset, from the platform or asked for by the host,
puts every piece of block state into its value of the table whatever was in flight, and leaves BUF; the state after reset
holds the same values and every register reads zero. That a reset is a step of its own, in which nothing else happens and
which leaves the host's actions and values, the draw index and a recorded fault, is the model's inference: log entry 11. -/
def Obligations.ResetSetsEveryBlockValue : Prop :=
  (∀ s : State, s.hostFault = none → nextTurn s = .reset →
    ∃ t, step s = .next t ∧ t.opa = 0 ∧ t.opb = 0 ∧ t.res = 0 ∧ t.status = 0 ∧ t.inflight = none ∧
      t = { s with opa := 0, opb := 0, res := 0, status := 0, inflight := none, turns := s.turns.tail }) ∧
  (∀ (s : State) (rest : List HostAction), s.host = .reset :: rest →
    hostTurn s = { s with opa := 0, opb := 0, res := 0, status := 0, inflight := none, host := rest }) ∧
  (∀ (c : Config) (m : Memory), (State.resetWith c m).opa = 0 ∧ (State.resetWith c m).opb = 0 ∧
    (State.resetWith c m).res = 0 ∧ statusBusy (State.resetWith c m).status = false ∧
    statusErr (State.resetWith c m).status = 0x0 ∧ statusDrop (State.resetWith c m).status = false ∧
    statusReserved (State.resetWith c m).status = 0 ∧ (State.resetWith c m).inflight = none ∧
    (State.resetWith c m).buf = m ∧ ∀ off, regRead (State.resetWith c m) off = 0)

/-! ### The step -/

/-- A step is the next turn: the platform's reset, the host's action, or the unit's completion of the command in
flight, which is `exec` of the command its word decodes to, or ILLEGAL. The schedule that moves on by one turn, and the turn in
which a unit with no command in flight does nothing, are the model's choice: log entry 3. -/
def Obligations.StepRunsTheDecodedCommand : Prop :=
  ∀ s : State, s.hostFault = none →
    (nextTurn s = .reset → step s = .next (resetBlock { s with turns := s.turns.tail })) ∧
    (nextTurn s = .host → step s = .next (hostTurn { s with turns := s.turns.tail })) ∧
    (nextTurn s = .unit → s.inflight = none → step s = .next { s with turns := s.turns.tail }) ∧
    (∀ (f : InFlight) (i : Instr), nextTurn s = .unit → s.inflight = some f → decode f.cmd = .legal i →
      step s = exec i { s with turns := s.turns.tail }) ∧
    (∀ (f : InFlight) (why : IllegalWord), nextTurn s = .unit → s.inflight = some f →
      decode f.cmd = .illegal why → step s = .next (raiseErr .illegal { s with turns := s.turns.tail }))

/-- The turns: the schedule's, and where it has ended, the unit's exactly while a command is in flight. The schedule's
form is the model's choice: log entry 3. -/
def Obligations.TurnsFollowTheSchedule : Prop :=
  ∀ s : State, (∀ (who : Turn) (ts : List Turn), s.turns = who :: ts → nextTurn s = who) ∧
    (s.turns = [] → (nextTurn s = .unit ↔ s.inflight ≠ none) ∧ (nextTurn s = .host ↔ s.inflight = none))

/-- A table word stored where the next step looks is the command that step runs, as if it had just been accepted. The
block fetches nothing: that a command is placed so, by `withFetchWord`, is the model's convention: log entry 9. -/
def Obligations.FetchedWordRunsNext : Prop :=
  ∀ (s : State) (nbits w : Nat) (i : Instr), decodeTableWord nbits w = some i →
    (s.withFetchWord nbits w).inflight = some { cmd := tableWord nbits w, a := s.opa, b := s.opb } ∧
    (s.withFetchWord nbits w).buf = s.buf ∧ (s.withFetchWord nbits w).config = s.config ∧
    (s.withFetchWord nbits w).res = s.res ∧
    ∃ t, step (s.withFetchWord nbits w) = .next t ∧
      exec i { s.withFetchWord nbits w with turns := s.turns } = .next t

/-- A host CMD write and a completion never fall into one step; both orders are admitted: taken first the write is
dropped, and after the completion it is accepted. -/
def Obligations.BothOrdersOfWriteAndCompletion : Prop :=
  ∀ (s : State) (f : InFlight) (w : Word) (rest : List HostAction) (ts : List Turn),
    s.hostFault = none → s.busy = true → s.inflight = some f →
    s.host = .write (s.config.regBase + 0x00) 4 w :: rest →
    (s.turns = .host :: ts →
      ∃ t, step s = .next t ∧ t.inflight = some f ∧ t.res = s.res ∧ statusDrop t.status = true) ∧
    (s.turns = .unit :: .host :: ts →
      ∃ t u, step s = .next t ∧ t.inflight = none ∧ t.host = s.host ∧ step t = .next u ∧
        u.inflight = some { cmd := w, a := s.opa, b := s.opb } ∧ u.res = t.res ∧ statusDrop u.status = false)

/-- A step never refuses, and it faults exactly where a host-protocol fault is recorded: no command stops the
machine. That a recorded fault is what every later step answers is the model's choice, log entry 12; one of the faults is
the model's own, log entry 8; and that an out-of-bounds command completes where 93_implementation_defined.md U2 speaks of
a fault is log entry 5. -/
def Obligations.StepStopsOnlyOnARecordedFault : Prop :=
  ∀ s : State, (∀ r, step s ≠ .refused r) ∧ (∀ f, step s = .fault f ↔ s.hostFault = some f)

/-! ### Whole-machine rules -/

/-- 10_state.md rule R18: STATUS changes only at a reset, at a host write to CMD (accept or drop) and at a completion. -/
def Obligations.StatusChangesOnlyAtItsEvents : Prop :=
  ∀ s t : State, step s = .next t → t.status ≠ s.status →
    nextTurn s = .reset ∨
    (nextTurn s = .host ∧ ∃ act rest, s.host = act :: rest ∧
      (act = .reset ∨ ∃ w, act = .write (s.config.regBase + 0x00) 4 w)) ∨
    (nextTurn s = .unit ∧ s.inflight ≠ none)

/-- 10_state.md rule R19: RES changes only at a reset and at a completion that succeeds. -/
def Obligations.ResultChangesOnlyAtSuccess : Prop :=
  ∀ s t : State, step s = .next t → t.res ≠ s.res →
    nextTurn s = .reset ∨ (nextTurn s = .host ∧ ∃ rest, s.host = .reset :: rest) ∨
    (nextTurn s = .unit ∧ s.inflight ≠ none ∧ statusErr t.status = 0x0)

/-- 10_state.md rule R17: OPA and OPB change only at a reset and at a host write to that register; the unit never writes them. -/
def Obligations.OperandsChangeOnlyByTheHostOrReset : Prop :=
  ∀ s t : State, step s = .next t → (t.opa ≠ s.opa ∨ t.opb ≠ s.opb) →
    nextTurn s = .reset ∨
    (nextTurn s = .host ∧ ∃ act rest, s.host = act :: rest ∧
      (act = .reset ∨ (∃ v, act = .write (s.config.regBase + 0x04) 4 v ∧ t.opa = v ∧ t.opb = s.opb) ∨
        (∃ v, act = .write (s.config.regBase + 0x08) 4 v ∧ t.opb = v ∧ t.opa = s.opa)))

/-- 20_memory.md rules R36 and R45, 60_exceptions.md rule R102, 70_reset_and_hazards.md rules R103 and R107: no step but a
host store while BUSY = 0 changes BUF: the unit never writes it, nor does reset, and a store while BUSY = 1 has no effect.
That a store at or past BUF_SIZE changes nothing either is the model's choice: log entry 8. The parameters never change. -/
def Obligations.BufChangesOnlyByHostStores : Prop :=
  ∀ s t : State, step s = .next t → t.config = s.config ∧
    (t.buf ≠ s.buf → nextTurn s = .host ∧ s.busy = false ∧
      ∃ off b rest, s.host = .storeBuf off b :: rest ∧ off < s.config.bufSize ∧ t.buf = s.buf.write off b)

/-- R25: BUSY = 1 exactly when INFLIGHT is not none: so after reset, and every step keeps it. -/
def Obligations.BusyExactlyWhileInFlight : Prop :=
  (∀ (c : Config) (m : Memory),
    (statusBusy (State.resetWith c m).status = true ↔ (State.resetWith c m).inflight ≠ none)) ∧
  (∀ s t : State, (statusBusy s.status = true ↔ s.inflight ≠ none) → step s = .next t →
    (statusBusy t.status = true ↔ t.inflight ≠ none))

/-- Every step keeps the invariant: BUF canonical and within BUF_SIZE, STATUS's reserved bits zero and its ERR one of
three codes, RES a 32-bit result or an output of BTD, BUSY as INFLIGHT says. -/
def Obligations.StepKeepsTheMachineWellFormed : Prop :=
  ∀ s t : State, Inv s → step s = .next t → Inv t

/-- The invariant holds right after reset on every platform, with BUF as any host left it, and `State.reset` is such a
state. The parameters it carries and the empty BUF are the model's choice: log entries 1 and 4. -/
def Obligations.ResetIsWellFormed : Prop :=
  (∀ (c : Config) (m : Memory), c.wf → bufWf c m → Inv (State.resetWith c m)) ∧
  Inv State.reset ∧ ∃ c, State.reset = State.resetWith c []

/-- No command stays in flight for ever (10_state.md rule R29, 70_reset_and_hazards.md rule R104): whatever the schedule,
within one step more than it is long there is a state with no command in flight, because the command completed or a reset
abandoned it, unless a recorded host-protocol fault stops the run first. The bound is of the model's schedule (log entry
3), not of the hardware. -/
def Obligations.CommandInFlightEndsUnderEverySchedule : Prop :=
  ∀ s : State, s.inflight ≠ none →
    ∃ k, 1 ≤ k ∧ k ≤ s.turns.length + 1 ∧
      ((∃ t, Host.Core.run Sys2Proof.core k s = .next t ∧ t.inflight = none) ∨
        (∃ f, Host.Core.run Sys2Proof.core k s = .fault f))

/-- 10_state.md rules R29 and R32, 70_reset_and_hazards.md rule R113: with no reset among the turns ahead and the host's
actions, every accepted command completes, whatever the schedule and whatever the host does meanwhile: the run reaches a
state `t` with the accepted command still in flight whose step is its completion, with the RES and the ERR that the
completion would have had at once. Only a host-protocol fault can come before it, and none comes where the host's actions
are meaningful ones. The bound is of the model's schedule (log entry 3), not of the hardware. That a MASK which draws has
the same draw now and later is the model's choice too: the draw is taken at an index that only a drawing completion moves
(log entry 2). -/
def Obligations.EveryAcceptedCommandCompletes : Prop :=
  ∀ (s : State) (f : InFlight), s.inflight = some f → s.busy = true → Turn.reset ∉ s.turns → HostAction.reset ∉ s.host →
    ∃ k, k ≤ s.turns.length ∧
      ((∃ fault, Host.Core.run Sys2Proof.core (k + 1) s = .fault fault ∧
          ¬ (s.hostFault = none ∧ ∀ act ∈ s.host, actionHasMeaningWhileBusy s.config act)) ∨
        ∃ t u w, Host.Core.run Sys2Proof.core k s = .next t ∧ t.inflight = some f ∧ t.busy = true ∧ t.res = s.res ∧
          nextTurn t = .unit ∧ step t = .next u ∧ unitTurn (popTurn t) = .next u ∧ u.inflight = none ∧ u.busy = false ∧
          unitTurn s = .next w ∧ u.res = w.res ∧ statusErr u.status = statusErr w.status)

/-- Where a run has ended and the schedule is empty, a step changes nothing. The idle step is the model's choice: log
entry 3. -/
def Obligations.EndedRunStaysEnded : Prop :=
  ∀ s : State, runEnded s → s.turns = [] → s.inflight = none → step s = .next s
end

