-- ==== Sys2Proof/Laws/Memory.lean ====
section
/-! SUPPORT. The laws of BUF's bytes: read after write, every other byte left alone, and the canonical form kept. -/

namespace Sys2Proof.Machine

@[simp] theorem Memory.read_nil (a : Nat) : Memory.read [] a = unlistedByte := rfl

theorem Memory.read_cons (k : Nat) (v : Byte) (m : Memory) (a : Nat) :
    Memory.read ((k, v) :: m) a = if a = k then v else Memory.read m a := rfl

theorem Memory.wf_nil : Memory.wf [] := by decide

theorem Memory.wf.tail {x : Host.Cell} {m : Memory} (h : Memory.wf (x :: m)) : Memory.wf m :=
  ⟨(List.pairwise_cons.mp h.1).2, fun y hy => h.2 y (List.mem_cons_of_mem _ hy)⟩

/-- Below its first offset a canonical memory lists nothing. -/
theorem Memory.read_of_lt {m : Memory} {a : Nat} (h : ∀ x ∈ m, a < x.1) : m.read a = unlistedByte := by
  induction m with
  | nil => rfl
  | cons x m ih =>
    obtain ⟨k, v⟩ := x
    rw [read_cons, if_neg (by have := h (k, v) (by simp); simp at this; omega)]
    exact ih fun y hy => h y (List.mem_cons_of_mem _ hy)

/-- Every listed offset of a written memory was listed before, or is the one written. -/
theorem Memory.mem_write {m : Memory} {a : Nat} {b : Byte} {x : Host.Cell} (h : x ∈ m.write a b) :
    x ∈ m ∨ (x = (a, b) ∧ b ≠ unlistedByte) := by
  induction m with
  | nil => unfold write at h; split at h <;> simp_all
  | cons y m ih =>
    obtain ⟨k, v⟩ := y
    unfold write at h
    split at h
    · split at h <;> (simp_all; try tauto)
    · split at h
      · split at h <;> (simp_all; try tauto)
      · rcases List.mem_cons.mp h with rfl | h
        · simp
        · rcases ih h with h | h
          · exact .inl (List.mem_cons_of_mem _ h)
          · exact .inr h

/-- A write keeps the canonical form. -/
theorem Memory.write_wf {m : Memory} (h : m.wf) (a : Nat) (b : Byte) : (m.write a b).wf := by
  induction m with
  | nil =>
    unfold write; split
    · exact wf_nil
    · exact ⟨by simp, by simpa⟩
  | cons y m ih =>
    obtain ⟨k, v⟩ := y
    have hk := (List.pairwise_cons.mp h.1).1
    unfold write
    split
    · split
      · exact h
      · refine ⟨List.pairwise_cons.mpr ⟨?_, h.1⟩, ?_⟩
        · intro x hx
          rcases List.mem_cons.mp hx with rfl | hx
          · assumption
          · exact Nat.lt_trans ‹a < k› (hk x hx)
        · intro x hx
          rcases List.mem_cons.mp hx with rfl | hx
          · assumption
          · exact h.2 x hx
    · split
      · split
        · exact h.tail
        · subst_vars
          refine ⟨List.pairwise_cons.mpr ⟨hk, h.tail.1⟩, ?_⟩
          intro x hx
          rcases List.mem_cons.mp hx with rfl | hx
          · assumption
          · exact h.tail.2 x hx
      · have ih := ih h.tail
        refine ⟨List.pairwise_cons.mpr ⟨?_, ih.1⟩, ?_⟩
        · intro x hx
          rcases mem_write hx with hx | ⟨rfl, _⟩
          · exact hk x hx
          · simp; omega
        · intro x hx
          rcases List.mem_cons.mp hx with rfl | hx
          · exact h.2 _ (by simp)
          · exact ih.2 x hx

/-- Read after write, at the written offset and at every other. -/
theorem Memory.read_write {m : Memory} (h : m.wf) (a : Nat) (b : Byte) (x : Nat) :
    (m.write a b).read x = if x = a then b else m.read x := by
  induction m with
  | nil => unfold write; split <;> simp_all [read_cons]
  | cons y m ih =>
    obtain ⟨k, v⟩ := y
    have hk := (List.pairwise_cons.mp h.1).1
    have below : ∀ z, z < k ∨ z = k → Memory.read m z = unlistedByte := fun z hz =>
      read_of_lt fun w hw => by have := hk w hw; simp at this; omega
    unfold write
    split
    · split
      · by_cases hx : x = a
        · subst hx; rw [if_pos rfl, read_cons, if_neg (by omega), below x (by omega)]; simp_all
        · rw [if_neg hx]
      · rw [read_cons]
    · split
      · subst_vars
        split
        · by_cases hx : x = k
          · subst hx; rw [if_pos rfl, below x (by omega)]; simp_all
          · rw [if_neg hx, read_cons, if_neg hx]
        · rw [read_cons, read_cons]; by_cases hx : x = k <;> simp [hx]
      · rw [read_cons, read_cons, ih h.tail]
        by_cases hx : x = k
        · subst hx; simp; omega
        · simp [hx]

/-- Two canonical memories that read alike are equal data. -/
theorem Memory.ext_read {m n : Memory} (hm : m.wf) (hn : n.wf) (h : ∀ a, m.read a = n.read a) : m = n := by
  induction m generalizing n with
  | nil =>
    cases n with
    | nil => rfl
    | cons y n =>
      obtain ⟨k, v⟩ := y
      have := h k; simp [read_cons] at this
      exact absurd this.symm (hn.2 (k, v) (by simp))
  | cons x m ih =>
    obtain ⟨k, v⟩ := x
    have hk := (List.pairwise_cons.mp hm.1).1
    cases n with
    | nil =>
      have := h k; simp [read_cons] at this
      exact absurd this (hm.2 (k, v) (by simp))
    | cons y n =>
      obtain ⟨l, w⟩ := y
      have hl := (List.pairwise_cons.mp hn.1).1
      have hkl : k = l := by
        rcases Nat.lt_trichotomy k l with hlt | rfl | hlt
        · have := h k
          rw [read_cons, if_pos rfl, read_cons, if_neg (by omega),
            read_of_lt fun z hz => by have := hl z hz; simp at this; omega] at this
          exact absurd this (hm.2 (k, v) (by simp))
        · rfl
        · have := h l
          rw [read_cons, if_neg (by omega), read_cons, if_pos rfl,
            read_of_lt fun z hz => by have := hk z hz; simp at this; omega] at this
          exact absurd this.symm (hn.2 (l, w) (by simp))
      subst hkl
      have hvw : v = w := by have := h k; simpa [read_cons] using this
      subst hvw
      rw [ih hm.tail hn.tail fun a => ?_]
      by_cases ha : a = k
      · subst ha
        rw [read_of_lt fun z hz => by have := hk z hz; simpa using this,
          read_of_lt fun z hz => by have := hl z hz; simpa using this]
      · have := h a; simpa [read_cons, ha] using this

end Sys2Proof.Machine
end

