-- ==== Sys2Proof/Laws/State.lean ====
section
/-! SUPPORT. What each state update does to each field of State: one lemma per field per update. -/

namespace Sys2Proof.Machine

variable (s : State)

@[simp] theorem accept_opa (w : Word) : (accept w s).opa = s.opa := rfl
@[simp] theorem accept_opb (w : Word) : (accept w s).opb = s.opb := rfl
@[simp] theorem accept_res (w : Word) : (accept w s).res = s.res := rfl
@[simp] theorem accept_status (w : Word) : (accept w s).status = setDrop false (setErr 0 (setBusy true s.status)) := rfl
@[simp] theorem accept_inflight (w : Word) : (accept w s).inflight = some { cmd := w, a := s.opa, b := s.opb } := rfl
@[simp] theorem accept_buf (w : Word) : (accept w s).buf = s.buf := rfl
@[simp] theorem accept_config (w : Word) : (accept w s).config = s.config := rfl
@[simp] theorem accept_host (w : Word) : (accept w s).host = s.host := rfl
@[simp] theorem accept_turns (w : Word) : (accept w s).turns = s.turns := rfl
@[simp] theorem accept_reads (w : Word) : (accept w s).reads = s.reads := rfl
@[simp] theorem accept_draws (w : Word) : (accept w s).draws = s.draws := rfl
@[simp] theorem accept_hostFault (w : Word) : (accept w s).hostFault = s.hostFault := rfl

@[simp] theorem dropCmd_opa : (dropCmd s).opa = s.opa := rfl
@[simp] theorem dropCmd_opb : (dropCmd s).opb = s.opb := rfl
@[simp] theorem dropCmd_res : (dropCmd s).res = s.res := rfl
@[simp] theorem dropCmd_status : (dropCmd s).status = setDrop true s.status := rfl
@[simp] theorem dropCmd_inflight : (dropCmd s).inflight = s.inflight := rfl
@[simp] theorem dropCmd_buf : (dropCmd s).buf = s.buf := rfl
@[simp] theorem dropCmd_config : (dropCmd s).config = s.config := rfl
@[simp] theorem dropCmd_host : (dropCmd s).host = s.host := rfl
@[simp] theorem dropCmd_turns : (dropCmd s).turns = s.turns := rfl
@[simp] theorem dropCmd_reads : (dropCmd s).reads = s.reads := rfl
@[simp] theorem dropCmd_draws : (dropCmd s).draws = s.draws := rfl
@[simp] theorem dropCmd_hostFault : (dropCmd s).hostFault = s.hostFault := rfl

@[simp] theorem completeOk_opa (r : DWord) : (completeOk r s).opa = s.opa := rfl
@[simp] theorem completeOk_opb (r : DWord) : (completeOk r s).opb = s.opb := rfl
@[simp] theorem completeOk_res (r : DWord) : (completeOk r s).res = r := rfl
@[simp] theorem completeOk_status (r : DWord) : (completeOk r s).status = setBusy false (setErr 0 s.status) := rfl
@[simp] theorem completeOk_inflight (r : DWord) : (completeOk r s).inflight = none := rfl
@[simp] theorem completeOk_buf (r : DWord) : (completeOk r s).buf = s.buf := rfl
@[simp] theorem completeOk_config (r : DWord) : (completeOk r s).config = s.config := rfl
@[simp] theorem completeOk_host (r : DWord) : (completeOk r s).host = s.host := rfl
@[simp] theorem completeOk_turns (r : DWord) : (completeOk r s).turns = s.turns := rfl
@[simp] theorem completeOk_reads (r : DWord) : (completeOk r s).reads = s.reads := rfl
@[simp] theorem completeOk_draws (r : DWord) : (completeOk r s).draws = s.draws := rfl
@[simp] theorem completeOk_hostFault (r : DWord) : (completeOk r s).hostFault = s.hostFault := rfl

@[simp] theorem raiseErr_opa (e : ErrCode) : (raiseErr e s).opa = s.opa := rfl
@[simp] theorem raiseErr_opb (e : ErrCode) : (raiseErr e s).opb = s.opb := rfl
@[simp] theorem raiseErr_res (e : ErrCode) : (raiseErr e s).res = s.res := rfl
@[simp] theorem raiseErr_status (e : ErrCode) : (raiseErr e s).status = setBusy false (setErr (errCode e) s.status) := rfl
@[simp] theorem raiseErr_inflight (e : ErrCode) : (raiseErr e s).inflight = none := rfl
@[simp] theorem raiseErr_buf (e : ErrCode) : (raiseErr e s).buf = s.buf := rfl
@[simp] theorem raiseErr_config (e : ErrCode) : (raiseErr e s).config = s.config := rfl
@[simp] theorem raiseErr_host (e : ErrCode) : (raiseErr e s).host = s.host := rfl
@[simp] theorem raiseErr_turns (e : ErrCode) : (raiseErr e s).turns = s.turns := rfl
@[simp] theorem raiseErr_reads (e : ErrCode) : (raiseErr e s).reads = s.reads := rfl
@[simp] theorem raiseErr_draws (e : ErrCode) : (raiseErr e s).draws = s.draws := rfl
@[simp] theorem raiseErr_hostFault (e : ErrCode) : (raiseErr e s).hostFault = s.hostFault := rfl

@[simp] theorem resetBlock_opa : (resetBlock s).opa = 0 := rfl
@[simp] theorem resetBlock_opb : (resetBlock s).opb = 0 := rfl
@[simp] theorem resetBlock_res : (resetBlock s).res = 0 := rfl
@[simp] theorem resetBlock_status : (resetBlock s).status = 0 := rfl
@[simp] theorem resetBlock_inflight : (resetBlock s).inflight = none := rfl
@[simp] theorem resetBlock_buf : (resetBlock s).buf = s.buf := rfl
@[simp] theorem resetBlock_config : (resetBlock s).config = s.config := rfl
@[simp] theorem resetBlock_host : (resetBlock s).host = s.host := rfl
@[simp] theorem resetBlock_turns : (resetBlock s).turns = s.turns := rfl
@[simp] theorem resetBlock_reads : (resetBlock s).reads = s.reads := rfl
@[simp] theorem resetBlock_draws : (resetBlock s).draws = s.draws := rfl
@[simp] theorem resetBlock_hostFault : (resetBlock s).hostFault = s.hostFault := rfl

@[simp] theorem popTurn_opa : (popTurn s).opa = s.opa := rfl
@[simp] theorem popTurn_opb : (popTurn s).opb = s.opb := rfl
@[simp] theorem popTurn_res : (popTurn s).res = s.res := rfl
@[simp] theorem popTurn_status : (popTurn s).status = s.status := rfl
@[simp] theorem popTurn_inflight : (popTurn s).inflight = s.inflight := rfl
@[simp] theorem popTurn_buf : (popTurn s).buf = s.buf := rfl
@[simp] theorem popTurn_config : (popTurn s).config = s.config := rfl
@[simp] theorem popTurn_host : (popTurn s).host = s.host := rfl
@[simp] theorem popTurn_turns : (popTurn s).turns = s.turns.tail := rfl
@[simp] theorem popTurn_reads : (popTurn s).reads = s.reads := rfl
@[simp] theorem popTurn_draws : (popTurn s).draws = s.draws := rfl
@[simp] theorem popTurn_hostFault : (popTurn s).hostFault = s.hostFault := rfl

@[simp] theorem takeDraw_opa (nb : Nat) (u : Bool) : (takeDraw nb u s).opa = s.opa := rfl
@[simp] theorem takeDraw_opb (nb : Nat) (u : Bool) : (takeDraw nb u s).opb = s.opb := rfl
@[simp] theorem takeDraw_res (nb : Nat) (u : Bool) : (takeDraw nb u s).res = s.res := rfl
@[simp] theorem takeDraw_status (nb : Nat) (u : Bool) : (takeDraw nb u s).status = s.status := rfl
@[simp] theorem takeDraw_inflight (nb : Nat) (u : Bool) : (takeDraw nb u s).inflight = s.inflight := rfl
@[simp] theorem takeDraw_buf (nb : Nat) (u : Bool) : (takeDraw nb u s).buf = s.buf := rfl
@[simp] theorem takeDraw_config (nb : Nat) (u : Bool) : (takeDraw nb u s).config = s.config := rfl
@[simp] theorem takeDraw_host (nb : Nat) (u : Bool) : (takeDraw nb u s).host = s.host := rfl
@[simp] theorem takeDraw_turns (nb : Nat) (u : Bool) : (takeDraw nb u s).turns = s.turns := rfl
@[simp] theorem takeDraw_reads (nb : Nat) (u : Bool) : (takeDraw nb u s).reads = s.reads := rfl
@[simp] theorem takeDraw_draws (nb : Nat) (u : Bool) : (takeDraw nb u s).draws = if maskDraws nb u then s.draws + 1 else s.draws := rfl
@[simp] theorem takeDraw_hostFault (nb : Nat) (u : Bool) : (takeDraw nb u s).hostFault = s.hostFault := rfl

@[simp] theorem advanceHost_opa (rest : List HostAction) : (advanceHost rest s).opa = s.opa := rfl
@[simp] theorem advanceHost_opb (rest : List HostAction) : (advanceHost rest s).opb = s.opb := rfl
@[simp] theorem advanceHost_res (rest : List HostAction) : (advanceHost rest s).res = s.res := rfl
@[simp] theorem advanceHost_status (rest : List HostAction) : (advanceHost rest s).status = s.status := rfl
@[simp] theorem advanceHost_inflight (rest : List HostAction) : (advanceHost rest s).inflight = s.inflight := rfl
@[simp] theorem advanceHost_buf (rest : List HostAction) : (advanceHost rest s).buf = s.buf := rfl
@[simp] theorem advanceHost_config (rest : List HostAction) : (advanceHost rest s).config = s.config := rfl
@[simp] theorem advanceHost_host (rest : List HostAction) : (advanceHost rest s).host = rest := rfl
@[simp] theorem advanceHost_turns (rest : List HostAction) : (advanceHost rest s).turns = s.turns := rfl
@[simp] theorem advanceHost_reads (rest : List HostAction) : (advanceHost rest s).reads = s.reads := rfl
@[simp] theorem advanceHost_draws (rest : List HostAction) : (advanceHost rest s).draws = s.draws := rfl
@[simp] theorem advanceHost_hostFault (rest : List HostAction) : (advanceHost rest s).hostFault = s.hostFault := rfl

@[simp] theorem recordFault_opa (f : Fault) : (recordFault f s).opa = s.opa := rfl
@[simp] theorem recordFault_opb (f : Fault) : (recordFault f s).opb = s.opb := rfl
@[simp] theorem recordFault_res (f : Fault) : (recordFault f s).res = s.res := rfl
@[simp] theorem recordFault_status (f : Fault) : (recordFault f s).status = s.status := rfl
@[simp] theorem recordFault_inflight (f : Fault) : (recordFault f s).inflight = s.inflight := rfl
@[simp] theorem recordFault_buf (f : Fault) : (recordFault f s).buf = s.buf := rfl
@[simp] theorem recordFault_config (f : Fault) : (recordFault f s).config = s.config := rfl
@[simp] theorem recordFault_host (f : Fault) : (recordFault f s).host = s.host := rfl
@[simp] theorem recordFault_turns (f : Fault) : (recordFault f s).turns = s.turns := rfl
@[simp] theorem recordFault_reads (f : Fault) : (recordFault f s).reads = s.reads := rfl
@[simp] theorem recordFault_draws (f : Fault) : (recordFault f s).draws = s.draws := rfl
@[simp] theorem recordFault_hostFault (f : Fault) : (recordFault f s).hostFault = some f := rfl

@[simp] theorem recordRead_opa (v : Word) : (recordRead v s).opa = s.opa := rfl
@[simp] theorem recordRead_opb (v : Word) : (recordRead v s).opb = s.opb := rfl
@[simp] theorem recordRead_res (v : Word) : (recordRead v s).res = s.res := rfl
@[simp] theorem recordRead_status (v : Word) : (recordRead v s).status = s.status := rfl
@[simp] theorem recordRead_inflight (v : Word) : (recordRead v s).inflight = s.inflight := rfl
@[simp] theorem recordRead_buf (v : Word) : (recordRead v s).buf = s.buf := rfl
@[simp] theorem recordRead_config (v : Word) : (recordRead v s).config = s.config := rfl
@[simp] theorem recordRead_host (v : Word) : (recordRead v s).host = s.host := rfl
@[simp] theorem recordRead_turns (v : Word) : (recordRead v s).turns = s.turns := rfl
@[simp] theorem recordRead_reads (v : Word) : (recordRead v s).reads = s.reads ++ [v] := rfl
@[simp] theorem recordRead_draws (v : Word) : (recordRead v s).draws = s.draws := rfl
@[simp] theorem recordRead_hostFault (v : Word) : (recordRead v s).hostFault = s.hostFault := rfl

@[simp] theorem resetWith_opa (c : Config) (m : Memory) : (State.resetWith c m).opa = 0 := rfl
@[simp] theorem resetWith_opb (c : Config) (m : Memory) : (State.resetWith c m).opb = 0 := rfl
@[simp] theorem resetWith_res (c : Config) (m : Memory) : (State.resetWith c m).res = 0 := rfl
@[simp] theorem resetWith_status (c : Config) (m : Memory) : (State.resetWith c m).status = 0 := rfl
@[simp] theorem resetWith_inflight (c : Config) (m : Memory) : (State.resetWith c m).inflight = none := rfl
@[simp] theorem resetWith_buf (c : Config) (m : Memory) : (State.resetWith c m).buf = m := rfl
@[simp] theorem resetWith_config (c : Config) (m : Memory) : (State.resetWith c m).config = c := rfl
@[simp] theorem resetWith_host (c : Config) (m : Memory) : (State.resetWith c m).host = [] := rfl
@[simp] theorem resetWith_turns (c : Config) (m : Memory) : (State.resetWith c m).turns = [] := rfl
@[simp] theorem resetWith_reads (c : Config) (m : Memory) : (State.resetWith c m).reads = [] := rfl
@[simp] theorem resetWith_draws (c : Config) (m : Memory) : (State.resetWith c m).draws = 0 := rfl
@[simp] theorem resetWith_hostFault (c : Config) (m : Memory) : (State.resetWith c m).hostFault = none := rfl

end Sys2Proof.Machine
end

