-- ==== Sys2Proof/Laws/Status.lean ====
section
/-! SUPPORT. The fields of STATUS: what each setter does to each bit, and to each field (rule R18). -/

namespace Sys2Proof.Machine

theorem getLsbD_setBusy (v : Bool) (st : Word) (i : Nat) :
    (setBusy v st).getLsbD i = if i = 0 then v else st.getLsbD i := by
  unfold setBusy
  rw [BitVec.getLsbD_append]
  rcases i with _ | i
  · simp
  · by_cases h : i < 31
    · simp [h, Nat.add_comm]
    · simp [h, BitVec.getLsbD_of_ge st (i + 1) (by omega)]

theorem getLsbD_setErr (e : BitVec 4) (st : Word) (i : Nat) :
    (setErr e st).getLsbD i = if 4 ≤ i ∧ i < 8 then e.getLsbD (i - 4) else st.getLsbD i := by
  unfold setErr
  rw [BitVec.getLsbD_append, BitVec.getLsbD_append]
  by_cases h4 : i < 4
  · simp [h4, show ¬ (4 ≤ i ∧ i < 8) by omega]
  · by_cases h8 : i < 8
    · simp [h4, show i - 4 < 4 by omega, show 4 ≤ i ∧ i < 8 by omega]
    · by_cases h : i < 32
      · simp [h4, show ¬ i - 4 < 4 by omega, h8, show i - 4 - 4 < 24 by omega, show 8 + (i - 4 - 4) = i by omega]
      · simp [h4, show ¬ i - 4 < 4 by omega, h8, show ¬ i - 4 - 4 < 24 by omega, BitVec.getLsbD_of_ge st i (by omega)]

theorem getLsbD_setDrop (v : Bool) (st : Word) (i : Nat) :
    (setDrop v st).getLsbD i = if i = 8 then v else st.getLsbD i := by
  unfold setDrop
  rw [BitVec.getLsbD_append, BitVec.getLsbD_append]
  by_cases h8 : i < 8
  · simp [h8, show i ≠ 8 by omega]
  · by_cases h : i = 8
    · subst h; simp
    · by_cases h32 : i < 32
      · simp [h8, h, show i - 8 ≠ 0 by omega, show i - 8 - 1 < 23 by omega, show 9 + (i - 8 - 1) = i by omega]
      · simp [h8, h, show i - 8 ≠ 0 by omega, show ¬ i - 8 - 1 < 23 by omega, BitVec.getLsbD_of_ge st i (by omega)]

theorem getLsbD_statusErr (st : Word) (i : Nat) :
    (statusErr st).getLsbD i = (decide (i < 4) && st.getLsbD (4 + i)) := by
  simp [statusErr]

theorem getLsbD_statusReserved (st : Word) (i : Nat) :
    (statusReserved st).getLsbD i =
      if i < 3 then st.getLsbD (1 + i) else (decide (i - 3 < 23) && st.getLsbD (9 + (i - 3))) := by
  unfold statusReserved
  rw [BitVec.getLsbD_append]
  by_cases h : i < 3 <;> simp [h]

@[simp] theorem statusBusy_setBusy (v : Bool) (st : Word) : statusBusy (setBusy v st) = v := by
  rw [statusBusy, getLsbD_setBusy]; rfl

@[simp] theorem statusBusy_setErr (e : BitVec 4) (st : Word) : statusBusy (setErr e st) = statusBusy st := by
  rw [statusBusy, getLsbD_setErr]; rfl

@[simp] theorem statusBusy_setDrop (v : Bool) (st : Word) : statusBusy (setDrop v st) = statusBusy st := by
  rw [statusBusy, getLsbD_setDrop]; rfl

@[simp] theorem statusDrop_setBusy (v : Bool) (st : Word) : statusDrop (setBusy v st) = statusDrop st := by
  rw [statusDrop, getLsbD_setBusy]; rfl

@[simp] theorem statusDrop_setErr (e : BitVec 4) (st : Word) : statusDrop (setErr e st) = statusDrop st := by
  rw [statusDrop, getLsbD_setErr]; rfl

@[simp] theorem statusDrop_setDrop (v : Bool) (st : Word) : statusDrop (setDrop v st) = v := by
  rw [statusDrop, getLsbD_setDrop]; rfl

@[simp] theorem statusErr_setBusy (v : Bool) (st : Word) : statusErr (setBusy v st) = statusErr st := by
  apply BitVec.eq_of_getLsbD_eq; intro i _
  simp only [getLsbD_statusErr, getLsbD_setBusy, show (4 + i = 0) = False by simp, if_false]

@[simp] theorem statusErr_setErr (e : BitVec 4) (st : Word) : statusErr (setErr e st) = e := by
  apply BitVec.eq_of_getLsbD_eq; intro i h
  simp only [getLsbD_statusErr, getLsbD_setErr, show 4 ≤ 4 + i ∧ 4 + i < 8 by omega, and_self, if_true, h,
    decide_true, Bool.true_and, Nat.add_sub_cancel_left]

@[simp] theorem statusErr_setDrop (v : Bool) (st : Word) : statusErr (setDrop v st) = statusErr st := by
  apply BitVec.eq_of_getLsbD_eq; intro i h
  simp only [getLsbD_statusErr, getLsbD_setDrop, show 4 + i ≠ 8 by omega, if_false]

@[simp] theorem statusReserved_setBusy (v : Bool) (st : Word) :
    statusReserved (setBusy v st) = statusReserved st := by
  apply BitVec.eq_of_getLsbD_eq; intro i _
  simp only [getLsbD_statusReserved, getLsbD_setBusy, show 1 + i ≠ 0 by omega, show 9 + (i - 3) ≠ 0 by omega, if_false]

@[simp] theorem statusReserved_setErr (e : BitVec 4) (st : Word) :
    statusReserved (setErr e st) = statusReserved st := by
  apply BitVec.eq_of_getLsbD_eq; intro i _
  simp only [getLsbD_statusReserved, getLsbD_setErr, show ¬ (4 ≤ 9 + (i - 3) ∧ 9 + (i - 3) < 8) by omega, if_false]
  split
  · simp only [show ¬ (4 ≤ 1 + i ∧ 1 + i < 8) by omega, if_false]
  · rfl

@[simp] theorem statusReserved_setDrop (v : Bool) (st : Word) :
    statusReserved (setDrop v st) = statusReserved st := by
  apply BitVec.eq_of_getLsbD_eq; intro i _
  simp only [getLsbD_statusReserved, getLsbD_setDrop, show 9 + (i - 3) ≠ 8 by omega, if_false]
  split
  · simp only [show 1 + i ≠ 8 by omega, if_false]
  · rfl

/-- STATUS is its three fields and its reserved bits: two words that agree on all of them are one. -/
theorem status_ext {x y : Word} (busy : statusBusy x = statusBusy y) (err : statusErr x = statusErr y)
    (drop : statusDrop x = statusDrop y) (reserved : statusReserved x = statusReserved y) : x = y := by
  apply BitVec.eq_of_getLsbD_eq; intro i hi
  have herr := fun k => congrArg (fun e => e.getLsbD k) err
  have hres := fun k => congrArg (fun e => e.getLsbD k) reserved
  simp only [getLsbD_statusErr, getLsbD_statusReserved] at herr hres
  by_cases h0 : i = 0
  · subst h0; exact busy
  by_cases h4 : i < 4
  · have := hres (i - 1)
    simpa only [show i - 1 < 3 by omega, if_true, show 1 + (i - 1) = i by omega] using this
  by_cases h8 : i < 8
  · have := herr (i - 4)
    simpa only [show i - 4 < 4 by omega, decide_true, Bool.true_and, show 4 + (i - 4) = i by omega] using this
  by_cases he : i = 8
  · subst he; exact drop
  have := hres (i - 6)
  simpa only [show ¬ i - 6 < 3 by omega, if_false, show i - 6 - 3 < 23 by omega, decide_true, Bool.true_and,
    show 9 + (i - 6 - 3) = i by omega] using this

end Sys2Proof.Machine
end

