-- ==== Sys2Proof/Laws/Ops.lean ====
section
/-! SUPPORT. What the shared operations and one step can do, said once: the outcome of each command, the completion of
a command in flight, the host's turn, and the inversion of `step`. -/

namespace Sys2Proof.Machine

/-! ### Completion -/

/-- The outcome of a decoded command on its latched operands (rule R31, `Execute`). -/
def outcomeOf (i : Instr) (f : InFlight) (s : State) : Except ErrCode DWord :=
  match i with
  | .swap32 => .ok (zext64 (swap32 f.a))
  | .swap16 => .ok (zext64 (swap16 f.a))
  | .btd => btdOutcome s (asUnsigned f.a)
  | .crc32 => crcOutcome s (asUnsigned f.a) (asUnsigned f.b)
  | .mask numBytes bitsStored isUnsigned =>
    .ok (zext64 (maskValue numBytes bitsStored isUnsigned (Config.maskDraw s.draws)))

/-- The draw a command takes, if it takes one. -/
def drawOf (i : Instr) (s : State) : State :=
  match i with
  | .mask numBytes _ isUnsigned => takeDraw numBytes isUnsigned s
  | _ => s

theorem onInFlight_some {s : State} {f : InFlight} (h : s.inflight = some f) (k : InFlight → State) :
    onInFlight s k = .next (k f) := by rw [onInFlight, h]

theorem onInFlight_none {s : State} (h : s.inflight = none) (k : InFlight → State) : onInFlight s k = .next s := by
  rw [onInFlight, h]

/-- With a command in flight every meaning answers a next state: the completion with its outcome. -/
theorem exec_inFlight {s : State} {f : InFlight} (h : s.inflight = some f) (i : Instr) :
    exec i s = .next (complete (outcomeOf i f s) (drawOf i s)) := by
  cases i <;> exact onInFlight_some h _

/-- With none in flight no meaning does anything. -/
theorem exec_idle {s : State} (h : s.inflight = none) (i : Instr) : exec i s = .next s := by
  cases i <;> exact onInFlight_none h _

@[simp] theorem complete_ok (r : DWord) (s : State) : complete (.ok r) s = completeOk r s := rfl

@[simp] theorem complete_error (e : ErrCode) (s : State) : complete (.error e) s = raiseErr e s := rfl

/-- The outcome of the unit's turn on the word `c`: an illegal word raises ILLEGAL (rules R31, R92). -/
def wordOutcome (c : Word) (f : InFlight) (s : State) : Except ErrCode DWord :=
  match decode c with
  | .legal i => outcomeOf i f s
  | .illegal _ => .error .illegal

/-- The outcome is a function of the word, the latched operands, BUF, BUF_SIZE and the draw (rule R31). -/
theorem wordOutcome_congr {s t : State} (c : Word) (f : InFlight) (hb : t.buf = s.buf)
    (hc : t.config.bufSize = s.config.bufSize) (hd : Config.maskDraw t.draws = Config.maskDraw s.draws) : wordOutcome c f t = wordOutcome c f s := by
  unfold wordOutcome
  split
  · rename_i i _; cases i <;> simp [outcomeOf, btdOutcome, crcOutcome, inBuf, hb, hc, hd]
  · rfl

/-- The draw the unit's turn on the word `c` takes. -/
def wordDraw (c : Word) (s : State) : State :=
  match decode c with
  | .legal i => drawOf i s
  | .illegal _ => s

/-- The unit's turn with a command in flight is its completion (rule R30). -/
theorem unitTurn_inFlight {s : State} {f : InFlight} (h : s.inflight = some f) :
    unitTurn s = .next (complete (wordOutcome f.cmd f s) (wordDraw f.cmd s)) := by
  simp only [unitTurn, h, runWord, wordOutcome, wordDraw]
  cases decode f.cmd with
  | legal i => exact exec_inFlight h i
  | illegal why => rfl

/-- The unit's turn with no command in flight changes nothing. -/
theorem unitTurn_idle {s : State} (h : s.inflight = none) : unitTurn s = .next s := by rw [unitTurn, h]

/-- A draw touches nothing but the index of the next draw. -/
theorem drawOf_eq (i : Instr) (s : State) : drawOf i s = { s with draws := (drawOf i s).draws } := by
  cases i <;> rfl

theorem wordDraw_eq (c : Word) (s : State) : wordDraw c s = { s with draws := (wordDraw c s).draws } := by
  unfold wordDraw; split
  · exact drawOf_eq _ s
  · rfl

/-- A completion leaves everything alone but RES, STATUS, INFLIGHT (rule R30). -/
theorem complete_eq (o : Except ErrCode DWord) (s : State) :
    complete o s = { s with res := (complete o s).res, status := (complete o s).status, inflight := none } := by
  cases o <;> rfl

@[simp] theorem complete_busy (o : Except ErrCode DWord) (s : State) : statusBusy (complete o s).status = false := by
  cases o <;> simp

@[simp] theorem complete_drop (o : Except ErrCode DWord) (s : State) :
    statusDrop (complete o s).status = statusDrop s.status := by cases o <;> simp

@[simp] theorem complete_reserved (o : Except ErrCode DWord) (s : State) :
    statusReserved (complete o s).status = statusReserved s.status := by cases o <;> simp

/-- The ERR code of an outcome (rule R91). -/
def outcomeErr (o : Except ErrCode DWord) : BitVec 4 :=
  match o with
  | .ok _ => 0x0
  | .error e => errCode e

@[simp] theorem complete_err (o : Except ErrCode DWord) (s : State) :
    statusErr (complete o s).status = outcomeErr o := by cases o <;> simp [outcomeErr]

/-! ### The host -/

/-- An access touches the window when some byte of it lies there (rule R22). -/
theorem touchesWindow_iff {c : Config} {addr bytes : Nat} :
    touchesWindow c addr bytes = true ↔ addr < c.regBase + 32 ∧ c.regBase < addr + bytes := by
  rw [touchesWindow, Bool.and_eq_true, decide_eq_true_iff, decide_eq_true_iff, windowBytes]

/-- A legal access is a 32-bit one at a multiple of 4 (rule R42). -/
theorem legalAccess_iff {c : Config} {addr bytes : Nat} :
    legalAccess c addr bytes = true ↔ bytes = 4 ∧ c.regBase ≤ addr ∧ (addr - c.regBase) % 4 = 0 := by
  rw [legalAccess, Bool.and_eq_true, Bool.and_eq_true, decide_eq_true_iff, decide_eq_true_iff, decide_eq_true_iff, and_assoc]

/-- What a register access can do: it is not an access to this block, it is recorded as a fault, or it is a 32-bit
access at a multiple of 4. -/
theorem hostWrite_cases (addr bytes : Nat) (v : Word) (s : State) :
    (touchesWindow s.config addr bytes = false ∧ hostWrite addr bytes v s = s) ∨
    (touchesWindow s.config addr bytes = true ∧ legalAccess s.config addr bytes = false ∧
      hostWrite addr bytes v s = recordFault .hostRegisterAccess s) ∨
    (touchesWindow s.config addr bytes = true ∧ legalAccess s.config addr bytes = true ∧
      hostWrite addr bytes v s = regWrite (addr - s.config.regBase) v s) := by
  unfold hostWrite
  cases ht : touchesWindow s.config addr bytes <;> cases hl : legalAccess s.config addr bytes <;> simp

/-- The same three cases of a register read. -/
theorem hostRead_cases (addr bytes : Nat) (s : State) :
    (touchesWindow s.config addr bytes = false ∧ hostRead addr bytes s = s) ∨
    (touchesWindow s.config addr bytes = true ∧ legalAccess s.config addr bytes = false ∧
      hostRead addr bytes s = recordFault .hostRegisterAccess s) ∨
    (touchesWindow s.config addr bytes = true ∧ legalAccess s.config addr bytes = true ∧
      hostRead addr bytes s = recordRead (regRead s (addr - s.config.regBase)) s) := by
  unfold hostRead
  cases ht : touchesWindow s.config addr bytes <;> cases hl : legalAccess s.config addr bytes <;> simp

/-- The register a legal write reaches. -/
theorem regWrite_cases (off : Nat) (v : Word) (s : State) :
    (off = offCmd ∧ s.busy = true ∧ regWrite off v s = dropCmd s) ∨
    (off = offCmd ∧ s.busy = false ∧ regWrite off v s = accept v s) ∨
    (off = offOpa ∧ regWrite off v s = { s with opa := v }) ∨
    (off = offOpb ∧ regWrite off v s = { s with opb := v }) ∨
    (off ≠ offCmd ∧ off ≠ offOpa ∧ off ≠ offOpb ∧ regWrite off v s = s) := by
  unfold regWrite cmdWrite
  by_cases h0 : off = offCmd
  · cases hb : s.busy <;> simp [h0]
  · by_cases h1 : off = offOpa
    · subst h1; exact .inr (.inr (.inl ⟨rfl, rfl⟩))
    · by_cases h2 : off = offOpb
      · subst h2; exact .inr (.inr (.inr (.inl ⟨rfl, rfl⟩)))
      · simp [h0, h1, h2]

/-- What one host action can do. -/
theorem hostAct_cases (act : HostAction) (s : State) :
    hostAct act s = s ∨
    (∃ f, hostAct act s = recordFault f s) ∨
    (∃ addr bytes, act = .read addr bytes ∧ ∃ v, hostAct act s = recordRead v s) ∨
    (∃ addr bytes v, act = .write addr bytes v ∧ legalAccess s.config addr bytes = true ∧
      touchesWindow s.config addr bytes = true ∧ hostAct act s = regWrite (addr - s.config.regBase) v s) ∨
    (∃ offset b, act = .storeBuf offset b ∧ s.busy = false ∧ offset < s.config.bufSize ∧
      hostAct act s = { s with buf := s.buf.write offset b }) ∨
    (act = .reset ∧ hostAct act s = resetBlock s) := by
  cases act with
  | write addr bytes v =>
    rcases hostWrite_cases addr bytes v s with ⟨_, h⟩ | ⟨_, _, h⟩ | ⟨ht, hl, h⟩
    · exact .inl h
    · exact .inr (.inl ⟨_, h⟩)
    · exact .inr (.inr (.inr (.inl ⟨_, _, _, rfl, hl, ht, h⟩)))
  | read addr bytes =>
    rcases hostRead_cases addr bytes s with ⟨_, h⟩ | ⟨_, _, h⟩ | ⟨_, _, h⟩
    · exact .inl h
    · exact .inr (.inl ⟨_, h⟩)
    · exact .inr (.inr (.inl ⟨_, _, rfl, _, h⟩))
  | wait => exact .inl rfl
  | storeBuf offset b =>
    simp only [hostAct, hostStoreBuf]
    cases hb : s.busy
    · by_cases ho : offset < s.config.bufSize
      · exact .inr (.inr (.inr (.inr (.inl ⟨_, _, rfl, rfl, ho, by simp [ho]⟩))))
      · exact .inr (.inl ⟨.hostBufWritePastEnd, by simp [ho]⟩)
    · exact .inr (.inl ⟨.hostBufWriteWhileBusy, by simp⟩)
  | reset => exact .inr (.inr (.inr (.inr (.inr ⟨rfl, rfl⟩))))

/-- The host's turn does nothing, or it performs the next action. -/
theorem hostTurn_cases (s : State) :
    (hostTurn s = s ∧ (s.host = [] ∨ (∃ rest, s.host = .wait :: rest) ∧ s.busy = true)) ∨
    (∃ act rest, s.host = act :: rest ∧ (act = .wait → s.busy = false) ∧
      hostTurn s = hostAct act (advanceHost rest s)) := by
  unfold hostTurn
  cases hh : s.host with
  | nil => exact .inl ⟨rfl, .inl rfl⟩
  | cons act rest =>
    by_cases ha : act = .wait
    · subst ha
      cases hb : s.busy
      · exact .inr ⟨_, _, rfl, fun _ => rfl, by simp⟩
      · exact .inl ⟨by simp, .inr ⟨⟨_, rfl⟩, rfl⟩⟩
    · exact .inr ⟨_, _, rfl, fun h => absurd h ha, by simp [ha]⟩

/-- An action that is not a WAIT is performed in the host's turn. -/
theorem hostTurn_act {s : State} {act : HostAction} {rest : List HostAction} (h : s.host = act :: rest)
    (hw : act ≠ .wait) : hostTurn s = hostAct act (advanceHost rest s) := by
  rw [hostTurn, h]; simp [hw]

/-- The window's slots are the legal accesses. -/
theorem window_access {c : Config} {off : Nat} (h : off < 32) (h4 : off % 4 = 0) :
    touchesWindow c (c.regBase + off) 4 = true ∧ legalAccess c (c.regBase + off) 4 = true := by
  refine ⟨?_, by simp [legalAccess, h4]⟩
  simp [touchesWindow, windowBytes]; omega

/-- The host's read of a slot. -/
theorem hostTurn_read {s : State} {off : Nat} {rest : List HostAction}
    (h : s.host = .read (s.config.regBase + off) 4 :: rest) (hw : off < 32) (h4 : off % 4 = 0) :
    hostTurn s = recordRead (regRead s off) (advanceHost rest s) := by
  obtain ⟨ht, hl⟩ := window_access (c := s.config) hw h4
  rw [hostTurn_act h (by simp), hostAct, hostRead, advanceHost_config, if_pos ht, if_pos hl,
    Nat.add_sub_cancel_left]
  rfl

/-- The host's write of a slot. -/
theorem hostTurn_write {s : State} {off : Nat} {v : Word} {rest : List HostAction}
    (h : s.host = .write (s.config.regBase + off) 4 v :: rest) (hw : off < 32) (h4 : off % 4 = 0) :
    hostTurn s = regWrite off v (advanceHost rest s) := by
  obtain ⟨ht, hl⟩ := window_access (c := s.config) hw h4
  rw [hostTurn_act h (by simp), hostAct, hostWrite, advanceHost_config, if_pos ht, if_pos hl,
    Nat.add_sub_cancel_left]

/-- Where the host turns while a command is in flight, and its actions hold no reset, it touches nothing that the
completion reads or writes but STATUS.DROP (rules R27, R28, R45). -/
theorem hostTurn_whileBusy {s : State} (hb : s.busy = true) (hr : HostAction.reset ∉ s.host) :
    (hostTurn s).busy = true ∧ (hostTurn s).inflight = s.inflight ∧ (hostTurn s).res = s.res ∧
      (hostTurn s).buf = s.buf ∧ (hostTurn s).config = s.config ∧ (hostTurn s).draws = s.draws ∧
      (hostTurn s).turns = s.turns ∧ (hostTurn s).host <:+ s.host := by
  rcases hostTurn_cases s with ⟨h, _⟩ | ⟨act, rest, hh, -, h⟩
  · simp [h, hb]
  · have hs : rest <:+ s.host := hh ▸ List.suffix_cons act rest
    rw [h]
    rcases hostAct_cases act (advanceHost rest s) with
      e | ⟨_, e⟩ | ⟨_, _, _, _, e⟩ | ⟨_, _, v, _, _, _, e⟩ | ⟨_, _, _, e, _⟩ | ⟨rfl, _⟩
    · rw [e]; exact ⟨hb, rfl, rfl, rfl, rfl, rfl, rfl, hs⟩
    · rw [e]; exact ⟨hb, rfl, rfl, rfl, rfl, rfl, rfl, hs⟩
    · rw [e]; exact ⟨hb, rfl, rfl, rfl, rfl, rfl, rfl, hs⟩
    · rw [e]
      rcases regWrite_cases _ v (advanceHost rest s) with ⟨-, -, e⟩ | ⟨-, e, -⟩ | ⟨-, e⟩ | ⟨-, e⟩ | ⟨-, -, -, e⟩
      · rw [e]; exact ⟨by simpa [State.busy] using hb, rfl, rfl, rfl, rfl, rfl, rfl, hs⟩
      · exact absurd (hb.symm.trans e) (by simp)
      · rw [e]; exact ⟨hb, rfl, rfl, rfl, rfl, rfl, rfl, hs⟩
      · rw [e]; exact ⟨hb, rfl, rfl, rfl, rfl, rfl, rfl, hs⟩
      · rw [e]; exact ⟨hb, rfl, rfl, rfl, rfl, rfl, rfl, hs⟩
    · exact absurd (hb.symm.trans e) (by simp)
    · exact absurd (hh ▸ List.mem_cons_self) hr

/-! ### One step -/

/-- Everything a step that answers a next state can have done. -/
theorem step_cases {s t : State} (h : step s = .next t) :
    s.hostFault = none ∧
    ((nextTurn s = .reset ∧ t = resetBlock (popTurn s)) ∨
     (nextTurn s = .host ∧ t = hostTurn (popTurn s)) ∨
     (nextTurn s = .unit ∧ s.inflight = none ∧ t = popTurn s) ∨
     (nextTurn s = .unit ∧ ∃ f, s.inflight = some f ∧
       t = complete (wordOutcome f.cmd f (popTurn s)) (wordDraw f.cmd (popTurn s)))) := by
  unfold step takeTurn at h
  cases hf : s.hostFault with
  | some f => simp [hf] at h
  | none =>
    refine ⟨rfl, ?_⟩
    cases ht : nextTurn s <;> simp only [hf, ht] at h
    · cases h; exact .inr (.inl ⟨rfl, rfl⟩)
    · cases hi : s.inflight with
      | none =>
        rw [unitTurn_idle (by simpa using hi)] at h
        cases h; exact .inr (.inr (.inl ⟨rfl, rfl, rfl⟩))
      | some f =>
        rw [unitTurn_inFlight (by simpa using hi)] at h
        cases h; exact .inr (.inr (.inr ⟨rfl, f, rfl, rfl⟩))
    · cases h; exact .inl ⟨rfl, rfl⟩

end Sys2Proof.Machine
end

