-- ==== Sys2Proof/Laws/PerInstr.lean ====
section
/-! SUPPORT. Facts about every command as syntax, one lemma per constructor. -/

namespace Sys2Proof.Laws.EncodedFields

/-- The fields of a well-formed command's word hold the row's OP value, zero in every reserved bit, and MASK's three
integers unchanged (rules R52, R53, R54). -/
def Statement (i : Instr) : Prop :=
  i.wellFormed = true →
    match i with
    | .swap32 => opField (encode i) = 0x1 ∧ zFieldN (encode i) = 0
    | .swap16 => opField (encode i) = 0x2 ∧ zFieldN (encode i) = 0
    | .btd => opField (encode i) = 0x3 ∧ zFieldN (encode i) = 0
    | .crc32 => opField (encode i) = 0x4 ∧ zFieldN (encode i) = 0
    | .mask numBytes bitsStored isUnsigned =>
      opField (encode i) = 0x5 ∧ zFieldM (encode i) = 0 ∧ (nbField (encode i)).toNat = numBytes ∧
        (bsField (encode i)).toNat = bitsStored ∧ uField (encode i) = isUnsigned

theorem swap32 : Statement .swap32 := by unfold Statement; decide

theorem swap16 : Statement .swap16 := by unfold Statement; decide

theorem btd : Statement .btd := by unfold Statement; decide

theorem crc32 : Statement .crc32 := by unfold Statement; decide

/-- Bit `i` of MASK's word, for fields that fit. -/
theorem getLsbD_encode_mask {nb bs : Nat} (u : Bool) (i : Nat) :
    (encode (.mask nb bs u)).getLsbD i =
      ((5#32).getLsbD i || (decide (i < 32) && (decide (4 ≤ i) && nb.testBit (i - 4)))
        || (decide (i < 32) && (decide (8 ≤ i) && bs.testBit (i - 8))) || (decide (i = 15) && u)) := by
  simp only [encode, BitVec.getLsbD_or, BitVec.getLsbD_shiftLeft, BitVec.getLsbD_ofNat]
  by_cases h : i < 32
  · cases u
    · have e4 : decide (4 ≤ i) = !decide (i < 4) := by simp [← decide_not]
      have e8 : decide (8 ≤ i) = !decide (i < 8) := by simp [← decide_not]
      simp [h, e4, e8, show i - 4 < 32 by omega, show i - 8 < 32 by omega]
    · have e4 : decide (4 ≤ i) = !decide (i < 4) := by simp [← decide_not]
      have e8 : decide (8 ≤ i) = !decide (i < 8) := by simp [← decide_not]
      have e15 : (!decide (i < 15) && decide (i - 15 = 0)) = decide (i = 15) := by
        by_cases h15 : i = 15
        · subst h15; rfl
        · simp [h15]; omega
      simp [h, e4, e8, show i - 4 < 32 by omega, show i - 8 < 32 by omega, ← e15]
  · simp [h, show i ≠ 15 by omega]

theorem mask (nb bs : Nat) (u : Bool) : Statement (.mask nb bs u) := by
  intro h
  simp only [Instr.wellFormed, Bool.and_eq_true, decide_eq_true_eq] at h
  obtain ⟨hnb, hbs⟩ := h
  have nbHigh : ∀ k, 4 ≤ k → nb.testBit k = false := fun k hk =>
    Nat.testBit_lt_two_pow (Nat.lt_of_lt_of_le (by omega : nb < 2 ^ 4) (Nat.pow_le_pow_right (by omega) hk))
  have bsHigh : ∀ k, 7 ≤ k → bs.testBit k = false := fun k hk =>
    Nat.testBit_lt_two_pow (Nat.lt_of_lt_of_le (by omega : bs < 2 ^ 7) (Nat.pow_le_pow_right (by omega) hk))
  have fiveHigh : ∀ k, 4 ≤ k → (5#32).getLsbD k = false := fun k hk => by
    rw [BitVec.getLsbD_ofNat,
      Nat.testBit_lt_two_pow (Nat.lt_of_lt_of_le (by omega : 5 < 2 ^ 4) (Nat.pow_le_pow_right (by omega) hk))]
    simp
  refine ⟨?_, ?_, ?_, ?_, ?_⟩
  · apply BitVec.eq_of_getLsbD_eq; intro i hi
    have : (opField (encode (.mask nb bs u))).getLsbD i = (encode (.mask nb bs u)).getLsbD i := by
      simp [opField, hi]
    rw [this, getLsbD_encode_mask]
    simp only [show ¬ 4 ≤ i by omega, show ¬ 8 ≤ i by omega, show i ≠ 15 by omega]
    rcases i with _ | _ | _ | _ | i
    all_goals first | rfl | omega
  · apply BitVec.eq_of_getLsbD_eq; intro i hi
    have : (zFieldM (encode (.mask nb bs u))).getLsbD i = (encode (.mask nb bs u)).getLsbD (16 + i) := by
      simp [zFieldM, hi]
    rw [this, getLsbD_encode_mask, nbHigh _ (by omega), bsHigh _ (by omega), fiveHigh _ (by omega)]
    simp [show 16 + i ≠ 15 by omega]
  · have : nbField (encode (.mask nb bs u)) = BitVec.ofNat 4 nb := by
      apply BitVec.eq_of_getLsbD_eq; intro i hi
      have : (nbField (encode (.mask nb bs u))).getLsbD i = (encode (.mask nb bs u)).getLsbD (4 + i) := by
        simp [nbField, hi]
      rw [this, getLsbD_encode_mask, fiveHigh _ (by omega), BitVec.getLsbD_ofNat]
      simp [hi, show 4 + i < 32 by omega, show ¬ 8 ≤ 4 + i by omega, show 4 + i ≠ 15 by omega]
    rw [this, BitVec.toNat_ofNat, Nat.mod_eq_of_lt (by omega)]
  · have : bsField (encode (.mask nb bs u)) = BitVec.ofNat 7 bs := by
      apply BitVec.eq_of_getLsbD_eq; intro i hi
      have : (bsField (encode (.mask nb bs u))).getLsbD i = (encode (.mask nb bs u)).getLsbD (8 + i) := by
        simp [bsField, hi]
      rw [this, getLsbD_encode_mask, fiveHigh _ (by omega), nbHigh _ (by omega), BitVec.getLsbD_ofNat]
      simp [hi, show 8 + i < 32 by omega, show 8 + i ≠ 15 by omega]
    rw [this, BitVec.toNat_ofNat, Nat.mod_eq_of_lt (by omega)]
  · show (encode (.mask nb bs u)).getLsbD 15 = u
    rw [getLsbD_encode_mask, fiveHigh _ (by omega), nbHigh _ (by omega), bsHigh _ (by omega)]
    simp

end Sys2Proof.Laws.EncodedFields
end

