-- ==== Sys2Proof/Tests/Slice0.lean ====
section
/-! SUPPORT. The author's tests: the smoke test of WellFormed, words written out from the spec's encodings, one-step
vectors taken from 95_test_vectors.md, and for each statement with hypotheses a witness that meets them. -/

namespace Sys2Proof.Tests

open Sys2Proof.Machine Sys2Proof.Safety

/-! ### Small states -/

/-- A state with the command `c` in flight on the operands `a` and `b`, BUF_SIZE 16, right after an accept. -/
def inFlightState (c a b : Word) (buf : Memory) : State :=
  { State.resetWith { bufSize := 16, regBase := 0 } buf with
    opa := a, opb := b, status := 1, inflight := some { cmd := c, a := a, b := b } }

/-- An idle state whose host is about to do `acts`, with the register window at host address 0x100. -/
def idleState (acts : List HostAction) : State :=
  { State.resetWith { bufSize := 16, regBase := 0x100 } [] with host := acts }

/-- The same with a SWAP32 of 5 in flight. -/
def busyState (acts : List HostAction) : State :=
  { idleState acts with status := 1, inflight := some { cmd := 1, a := 5, b := 0 } }

/-- RES and STATUS after a command's meaning. -/
def after (i : Instr) (s : State) : Option (DWord × Word) :=
  match exec i s with
  | .next t => some (t.res, t.status)
  | _ => none

/-- RES and STATUS after a step. -/
def afterStep (s : State) : Option (DWord × Word) :=
  match step s with
  | .next t => some (t.res, t.status)
  | _ => none

/-- The step answers this next state, as a Bool that decide can run on. -/
def stepsTo (s t : State) : Bool :=
  match step s with
  | .next u => decide (u = t)
  | _ => false

theorem step_of_stepsTo {s t : State} (h : stepsTo s t = true) : step s = .next t := by
  unfold stepsTo at h
  split at h
  · rw [‹step s = _›, of_decide_eq_true h]
  · cases h

/-! ### Well-formedness: one ill-formed term for each check (rules R52, R60) -/

theorem test_mask_numBytes_16_refused : (Instr.mask 16 0 true).wellFormed = false := by decide

theorem test_mask_bitsStored_128_refused : (Instr.mask 2 128 true).wellFormed = false := by decide

theorem test_mask_largest_fields_allowed : (Instr.mask 15 127 true).wellFormed = true := by decide

/-! ### Words written out bit by bit from rules R52 and R53 -/

theorem test_decode_swap32 : decode 0b00000000000000000000000000000001 = .legal .swap32 := by decide

theorem test_decode_swap16 : decode 0b00000000000000000000000000000010 = .legal .swap16 := by decide

theorem test_decode_btd : decode 0b00000000000000000000000000000011 = .legal .btd := by decide

theorem test_decode_crc32 : decode 0b00000000000000000000000000000100 = .legal .crc32 := by decide

/-- U = 1, BS = 0001100 (12), NB = 0010 (2), OP = 0101. -/
theorem test_decode_mask : decode 0b00000000000000001000110000100101 = .legal (.mask 2 12 true) := by decide

theorem test_decode_reserved : decode 0x80000003 = .illegal .reservedBitSet ∧ decode 0xFFFFFFFF = .illegal .unassignedOp ∧
    decode 0x0000000F = .illegal .unassignedOp := by decide

theorem test_decode_table_words : decodeTableWord 32 0x00000004 = some .crc32 ∧
    decodeTableWord 32 0x0000C085 = some (.mask 8 64 true) ∧ decodeTableWord 32 0 = none := by decide

/-! ### Vectors of 95_test_vectors.md section 2, one step each -/

/-- Section 2.1: 0xDEADBEEF. -/
theorem test_swap32_vector : after .swap32 (inFlightState 1 0xDEADBEEF 7 []) = some (0x00000000EFBEADDE, 0) := by decide

/-- Section 2.2: 0x12345680, the input's high half ignored, a negative result zero-extended into RES. -/
theorem test_swap16_vector : after .swap16 (inFlightState 2 0x12345680 0 []) = some (0x00000000FFFF8056, 0) := by decide

/-- Section 2.2: 0x00008001, input bit 15 set and output bit 15 clear. -/
theorem test_swap16_positive : after .swap16 (inFlightState 2 0x00008001 0 []) = some (0x0000000000000180, 0) := by
  decide

/-- L1-9, at the last legal offset of section 2.3: 3F F0 … at 8 is 1.0. -/
theorem test_btd_one : after .btd (inFlightState 3 8 0 [(8, 0x3F), (9, 0xF0)]) = some (0x3FF0000000000000, 0) := by decide

/-- Section 2.3 bounds: offset 0xFFFFFFFF does not wrap; OOB reads STATUS = 0x20. -/
theorem test_btd_oob : after .btd (inFlightState 3 0xFFFFFFFF 0 []) = some (0, 0x00000020) := by decide

/-- L1-4: "123456789". -/
theorem test_crc32_check_value :
    after .crc32 (inFlightState 4 0 9 [(0, 0x31), (1, 0x32), (2, 0x33), (3, 0x34), (4, 0x35), (5, 0x36), (6, 0x37),
      (7, 0x38), (8, 0x39)]) = some (0x00000000CBF43926, 0) := by decide

/-- Section 2.4 bounds: 1 + 16 = 17 > 16. -/
theorem test_crc32_oob : after .crc32 (inFlightState 4 1 16 []) = some (0, 0x00000020) := by decide

/-- Section 2.5: `MASK 2, 33, u`. -/
theorem test_mask_above_container : after (.mask 2 33 true) (inFlightState 0xA125 0 0 []) = some (1, 0) := by decide

/-- Section 2.5: `MASK 15, 127, s`. -/
theorem test_mask_signed : after (.mask 15 127 false) (inFlightState 0x7FF5 0 0 []) = some (0x00000000FFFFFFFF, 0) := by
  decide

/-- Section 2.6: BTD's opcode with bit 31 set is ILLEGAL, with no bounds check. -/
theorem test_illegal_word : afterStep (inFlightState 0x80000003 0xFFFFFFFF 0 []) = some (0, 0x00000010) := by decide

/-- Section 2.7, row 1: the accept clears ERR = 2 and DROP = 1 and latches OPA = 5. -/
theorem test_accept : stepsTo { idleState [.write 0x100 4 1] with opa := 5, status := 0x120 }
    { idleState [] with opa := 5, status := 1, inflight := some { cmd := 1, a := 5, b := 0 } } = true := by decide

/-- Section 2.7, row 2: a write while busy is dropped. -/
theorem test_drop : stepsTo { busyState [.write 0x100 4 4] with turns := [.host] }
    { busyState [] with status := 0x101 } = true := by decide

/-- Section 2.7, row 6: a write to STATUS changes nothing. -/
theorem test_status_write_ignored : stepsTo (idleState [.write 0x10C 4 0xFFFFFFFF]) (idleState []) = true := by decide

/-- Section 2.7, row 7: a reset while busy. -/
theorem test_reset_while_busy : stepsTo { busyState [] with turns := [.reset] } (idleState []) = true := by decide

/-- Rule R42: a halfword access is recorded as a fault (rule R102). -/
theorem test_halfword_access : stepsTo (idleState [.read 0x104 2])
    { idleState [] with hostFault := some .hostRegisterAccess } = true := by decide

/-- The next step after `withFetchWord` runs the word: SWAP32 of OPA = 0. -/
theorem test_fetch_word : afterStep (State.reset.withFetchWord 32 1) = some (0, 0) ∧
    (match step (State.reset.withFetchWord 32 0x00008C25) with | .next t => t.res | _ => 0) = 0x0FFF := by decide

/-- Rule R61's table, in the words of rule R60 and the offsets of rule R16. -/
theorem test_macros :
    swap32Macro { bufSize := 16, regBase := 0x100 } 7 =
      [.write 0x104 4 7, .write 0x100 4 0x00000001, .wait, .read 0x110 4] ∧
    crc32Macro { bufSize := 16, regBase := 0x100 } 4 9 =
      [.write 0x104 4 4, .write 0x108 4 9, .write 0x100 4 0x00000004, .wait, .read 0x10C 4, .read 0x110 4] ∧
    btdMacro { bufSize := 16, regBase := 0x100 } 8 =
      [.write 0x104 4 8, .write 0x100 4 0x00000003, .wait, .read 0x10C 4, .read 0x114 4, .read 0x110 4] ∧
    maskMacro { bufSize := 16, regBase := 0x100 } 2 12 true =
      some [.write 0x100 4 0x00008C25, .wait, .read 0x110 4] ∧
    maskMacro { bufSize := 16, regBase := 0x100 } 2 128 false = none := by decide

theorem test_assembler : assemble "  SWAP16 ".toList = some 2 ∧ assemble "MASK 0xF, 127, s".toList = some 0x00007FF5 ∧
    assemble "MASK 16, 0, u".toList = none ∧ assemble "MASK 1, 128, s".toList = none ∧ assemble "swap32".toList = none := by
  decide

/-! ### Witnesses: states and operands that meet each statement's hypotheses -/

theorem witness_EncoderInvertsDecoder :
    (15 ≤ 15 ∧ 127 ≤ 127) ∧ (Instr.mask 15 127 true).wellFormed = true ∧
      decode 0x0000FFF5 = .legal (.mask 15 127 true) := by decide

theorem witness_AssemblerSpellsNoIllegalWord : assemble "MASK 15, 127, u".toList = some 0x0000FFF5 := by decide

theorem witness_IllegalRaisedExactlyByIllegalWords :
    (inFlightState 0x00018C25 0 0 []).inflight = some { cmd := 0x00018C25, a := 0, b := 0 } := by decide

/-- An illegal word for each clause of rule R56, idle and in flight. -/
theorem witness_IllegalWordIsAcceptedAndOnlySetsErr :
    (idleState []).busy = false ∧
      (inFlightState 0x00000000 0 0 []).inflight = some { cmd := 0x00000000, a := 0, b := 0 } ∧
      decode 0x00000000 = .illegal .unassignedOp ∧
      (inFlightState 0x00000014 0 0 []).inflight = some { cmd := 0x00000014, a := 0, b := 0 } ∧
      decode 0x00000014 = .illegal .reservedBitSet ∧
      (inFlightState 0x00010005 0 0 []).inflight = some { cmd := 0x00010005, a := 0, b := 0 } ∧
      decode 0x00010005 = .illegal .reservedBitSet :=
  ⟨by decide, by decide, by decide, by decide, by decide, by decide, by decide⟩

/-- The slots, each with the value its clause asks for. -/
theorem witness_RegisterReadsFollowTheMap :
    (∀ off ∈ [0x00, 0x04, 0x08, 0x0C, 0x10, 0x14, 0x18, 0x1C],
      (idleState [.read (0x100 + off) 4]).host =
        .read ((idleState [.read (0x100 + off) 4]).config.regBase + off) 4 :: []) ∧
    (∀ s ∈ [{ idleState [.read 0x110 4] with res := 0xFFF0000000000001 }],
      (0x00000001#32).toNat = s.res.toNat % 2 ^ 32 ∧ (0xFFF00000#32).toNat = s.res.toNat / 2 ^ 32) := by decide

/-- A read without a meaning, and the nearest reads outside the window, which keep the recorded fault as it is. -/
theorem witness_HostReadsHaveNoSideEffect :
    (idleState [.read 0x101 2]).host = .read 0x101 2 :: [] ∧
      (idleState []).config.regBase ≥ 0xFC + 4 ∧ (idleState [.read 0xFC 4]).host = .read 0xFC 4 :: [] ∧
      (idleState []).config.regBase + 32 ≤ 0x120 ∧ (idleState [.read 0x120 4]).host = .read 0x120 4 :: [] ∧
      (4 = 4 ∧ (idleState []).config.regBase ≤ 0x11C ∧ (0x11C - (idleState []).config.regBase) % 4 = 0) ∧
      (idleState [.read 0x11C 4]).host = .read 0x11C 4 :: [] := by
  decide

/-- The states of the run between two reads of STATUS, with a WAIT and a read of RESLO between them. -/
def pathBetweenReads (k : Nat) : State :=
  match k with
  | 0 => idleState [.read 0x10C 4, .wait, .read 0x110 4, .read 0x10C 4]
  | 1 => { idleState [.wait, .read 0x110 4, .read 0x10C 4] with reads := [0] }
  | 2 => { idleState [.read 0x110 4, .read 0x10C 4] with reads := [0] }
  | _ => { idleState [.read 0x10C 4] with reads := [0, 0] }

theorem witness_ReadingTwiceReturnsTheSameValue :
    (0x0C < 32 ∧ 0x0C % 4 = 0) ∧
    (pathBetweenReads 0).host = .read ((pathBetweenReads 0).config.regBase + 0x0C) 4 :: [.wait, .read 0x110 4, .read 0x10C 4] ∧
    (pathBetweenReads 3).host = .read ((pathBetweenReads 3).config.regBase + 0x0C) 4 :: [] ∧
    ∀ k < 3, step (pathBetweenReads k) = .next (pathBetweenReads (k + 1)) ∧
      stepWritesNoRegister (pathBetweenReads k) := by
  refine ⟨by decide, by decide, by decide, ?_⟩
  intro k hk
  obtain rfl | rfl | rfl : k = 0 ∨ k = 1 ∨ k = 2 := by omega
  · exact ⟨step_of_stepsTo (by decide), by decide, fun _ => by decide, fun act rest _ h => by cases h; exact .inr (.inl ⟨_, _, rfl⟩)⟩
  · exact ⟨step_of_stepsTo (by decide), by decide, fun _ => by decide, fun act rest _ h => by cases h; exact .inl rfl⟩
  · exact ⟨step_of_stepsTo (by decide), by decide, fun _ => by decide, fun act rest _ h => by cases h; exact .inr (.inl ⟨_, _, rfl⟩)⟩

theorem witness_CommandWriteIsAcceptedWhenIdle :
    (idleState [.write 0x100 4 0]).host = .write ((idleState []).config.regBase + 0x00) 4 0 :: [] ∧
      (idleState [.write 0x100 4 0]).busy = false := by decide

theorem witness_CommandWriteIsDroppedWhenBusy :
    (busyState [.write 0x100 4 4]).host = .write ((busyState []).config.regBase + 0x00) 4 4 :: [] ∧
      (busyState [.write 0x100 4 4]).busy = true := by decide

theorem witness_OperandWritesLeaveTheCommandInFlight :
    (busyState [.write 0x104 4 7]).host = .write ((busyState []).config.regBase + 0x04) 4 7 :: [] ∧
      (busyState [.write 0x108 4 7]).host = .write ((busyState []).config.regBase + 0x08) 4 7 :: [] := by decide

/-- Every offset of the first two clauses, and the nearest accesses below and above the window. -/
theorem witness_ReadOnlyReservedAndOutsideAccesses :
    (∀ off ∈ [0x0C, 0x10, 0x14, 0x18, 0x1C],
      (idleState [.write (0x100 + off) 4 9]).host = .write ((idleState []).config.regBase + off) 4 9 :: []) ∧
    (∀ off ∈ [0x18, 0x1C],
      (idleState [.read (0x100 + off) 4]).host = .read ((idleState []).config.regBase + off) 4 :: []) ∧
    0xFC + 4 ≤ (idleState []).config.regBase ∧ (idleState []).config.regBase + 32 ≤ 0x120 ∧
    (idleState [.write 0xFC 4 9]).host = .write 0xFC 4 9 :: [] ∧ (idleState [.read 0x120 4]).host = .read 0x120 4 :: [] := by
  decide

/-- An access that straddles the window's start, a misaligned one, a byte one, and a store while busy. -/
theorem witness_MeaninglessHostActionsAreRecorded :
    (∀ x ∈ [(0xFF, 4), (0x102, 4), (0x104, 1), (0x11F, 1), (0x104, 8)],
      x.1 < (idleState []).config.regBase + 32 ∧ (idleState []).config.regBase < x.1 + x.2 ∧
      ¬ (x.2 = 4 ∧ (idleState []).config.regBase ≤ x.1 ∧ (x.1 - (idleState []).config.regBase) % 4 = 0) ∧
      (idleState [.write x.1 x.2 0]).host = .write x.1 x.2 0 :: []) ∧
    (busyState [.storeBuf 15 1]).busy = true ∧ (busyState [.storeBuf 15 1]).host = .storeBuf 15 1 :: [] ∧
    { idleState [] with hostFault := some Fault.hostRegisterAccess }.hostFault = some .hostRegisterAccess := by decide

theorem witness_HostStorePastTheEndIsRecorded :
    (idleState [.storeBuf 16 1]).busy = false ∧ (idleState []).config.bufSize ≤ 16 ∧
      (idleState [.storeBuf 16 1]).host = .storeBuf 16 1 :: [] := by decide

theorem witness_HostStoreChangesOneByte :
    (idleState [.storeBuf 15 1]).buf.wf ∧ (idleState [.storeBuf 15 1]).busy = false ∧
      15 < (idleState []).config.bufSize ∧ (idleState [.storeBuf 15 1]).host = .storeBuf 15 1 :: [] := by decide

theorem witness_WaitEndsWhenBusyIsZero :
    (busyState [.wait]).host = .wait :: [] ∧ (busyState [.wait]).busy = true ∧
      (idleState [.wait]).host = .wait :: [] ∧ (idleState [.wait]).busy = false := by decide

/-- The witness of every statement whose only hypothesis is a command in flight: Swap32ReversesTheFourBytes,
Swap16SwapsAndSignExtends, MaskSignedIsAllOnes, EveryCommandCompletesWithinItsFrame, ErrorsArePrecise,
OobRaisedExactlyPastTheEnd. -/
theorem witness_commandInFlight :
    (inFlightState 1 0x12345678 0 []).inflight = some { cmd := 1, a := 0x12345678, b := 0 } := by decide

theorem witness_SwapsDependOnTheLatchedOpaAlone :
    (inFlightState 2 0x0102 0 []).inflight = some { cmd := 2, a := 0x0102, b := 0 } ∧
      (inFlightState 2 0x0102 9 [(3, 7)]).inflight = some { cmd := 2, a := 0x0102, b := 9 } ∧
      decode 2 = .legal .swap16 ∧ decode 1 = .legal .swap32 := by decide

theorem witness_MemReadIsBigEndian : 7 < 8 ∧ 0 < 8 := by decide

/-- The last legal offset, with each of the three exponent classes: for BtdFlushesExponentZero,
BtdCollapsesExponentAllOnes and BtdIsTheIdentityOnNormalPatterns. -/
theorem witness_Btd_exponents :
    (inFlightState 3 8 0 []).inflight = some { cmd := 3, a := 8, b := 0 } ∧
      (8#32).toNat + 8 ≤ (inFlightState 3 8 0 []).config.bufSize ∧
      (inFlightState 3 8 0 [(8, 0x80)]).buf = [(8, 0x80)] ∧
      ((memRead [(8, 0x80)] 8 8).extractLsb' 52 11).toNat = 0 ∧
      ((memRead [(8, 0xFF), (9, 0xF8)] 8 8).extractLsb' 52 11).toNat = 0x7FF ∧
      (memRead [(8, 0xFF), (9, 0xF8)] 8 8).getLsbD 63 = true ∧ (memRead [(8, 0x7F), (9, 0xF8)] 8 8).getLsbD 63 = false ∧
      ((memRead [(9, 0x10)] 8 8).extractLsb' 52 11).toNat = 1 ∧
      ((memRead [(8, 0x7F), (9, 0xE0)] 8 8).extractLsb' 52 11).toNat = 0x7FE := by decide

theorem witness_BtdNormalResultIsExact :
    ∃ (s : State) (f : InFlight) (sign : Bool) (e m : Nat), s.inflight = some f ∧ f.a.toNat + 8 ≤ s.config.bufSize ∧
      sign = (memRead s.buf f.a.toNat 8).getLsbD 63 ∧ e = ((memRead s.buf f.a.toNat 8).extractLsb' 52 11).toNat ∧
      m = ((memRead s.buf f.a.toNat 8).extractLsb' 0 52).toNat ∧ 1 ≤ e ∧ e ≤ 0x7FE :=
  ⟨inFlightState 3 8 0 [(8, 0xC0)], { cmd := 3, a := 8, b := 0 }, true, 0x400, 0, by decide⟩

/-- The whole buffer, the empty range past the end, and the first range out of bounds. -/
theorem witness_Crc32FoldsItsRange :
    (inFlightState 4 0 16 []).inflight = some { cmd := 4, a := 0, b := 16 } ∧
      (0#32).toNat + (16#32).toNat ≤ (inFlightState 4 0 16 []).config.bufSize ∧ (0#32).toNat = 0 ∧
      (inFlightState 4 1 16 []).inflight = some { cmd := 4, a := 1, b := 16 } ∧
      0 < (16#32).toNat ∧ (1#32).toNat + (16#32).toNat > (inFlightState 4 1 16 []).config.bufSize := by decide

theorem witness_Crc32OfTheEmptyRange :
    (inFlightState 4 0x100 0 []).inflight = some { cmd := 4, a := 0x100, b := 0 } := by decide

theorem witness_Crc32OfOneByte :
    (inFlightState 4 15 1 [(15, 0xFF)]).inflight = some { cmd := 4, a := 15, b := 1 } ∧
      (15#32).toNat + 1 ≤ (inFlightState 4 15 1 [(15, 0xFF)]).config.bufSize ∧
      (0xFF : Byte) = (inFlightState 4 15 1 [(15, 0xFF)]).buf.read (15#32).toNat := by decide

theorem witness_Crc32RefinesTheBitSerialRegister :
    (inFlightState 4 7 9 []).inflight = some { cmd := 4, a := 7, b := 9 } ∧
      (7#32).toNat + (9#32).toNat ≤ (inFlightState 4 7 9 []).config.bufSize := by decide

/-- The valid numBytes, and the bounds of the two closed forms. -/
theorem witness_MaskUnsignedValidNumBytes :
    (inFlightState 0xC085 0 0 []).inflight = some { cmd := 0xC085, a := 0, b := 0 } ∧
      (1 ≤ 32 ∧ 32 ≤ 8 * 4 ∧ 32 ≤ 32) ∧ (33 ≤ 33 ∧ 33 ≤ 64) ∧ 64 ≤ 64 := by decide

theorem witness_MaskUnspecifiedNumBytesDraws :
    (inFlightState 0x8C35 0 0 []).inflight = some { cmd := 0x8C35, a := 0, b := 0 } ∧
      ¬ (3 = 1 ∨ 3 = 2 ∨ 3 = 4 ∨ 3 = 8) ∧ ¬ (0 = 1 ∨ 0 = 2 ∨ 0 = 4 ∨ 0 = 8) := by decide

/-- Two states that agree on a completion's inputs and differ in OPA, STATUS.DROP and the host. -/
theorem witness_ExecuteDependsOnItsInputsAlone :
    ∃ (s s' : State) (f : InFlight), s ≠ s' ∧ s.inflight = some f ∧ s'.inflight = some f ∧
      (∀ a, s.buf.read a = s'.buf.read a) ∧ s.config.bufSize = s'.config.bufSize ∧
      Config.maskDraw s.draws = Config.maskDraw s'.draws :=
  ⟨busyState [], { busyState [.wait] with opa := 9, status := 0x101 }, { cmd := 1, a := 5, b := 0 }, by decide, by decide,
    by decide, fun _ => rfl, by decide, rfl⟩

theorem witness_ResetSetsEveryBlockValue :
    { busyState [] with turns := [.reset] }.hostFault = none ∧ nextTurn { busyState [] with turns := [.reset] } = .reset ∧
      (busyState [.reset]).host = .reset :: [] := by decide

/-- One state for each clause. -/
theorem witness_StepRunsTheDecodedCommand :
    (busyState []).hostFault = none ∧
      nextTurn { busyState [] with turns := [.reset] } = .reset ∧ nextTurn (idleState []) = .host ∧
      (nextTurn { idleState [] with turns := [.unit] } = .unit ∧ (idleState []).inflight = none) ∧
      (nextTurn (busyState []) = .unit ∧ (busyState []).inflight = some { cmd := 1, a := 5, b := 0 } ∧
        decode 1 = .legal .swap32) ∧
      (nextTurn (inFlightState 6 0 0 []) = .unit ∧
        (inFlightState 6 0 0 []).inflight = some { cmd := 6, a := 0, b := 0 } ∧
        decode 6 = .illegal .unassignedOp) := by decide

theorem witness_TurnsFollowTheSchedule :
    { idleState [] with turns := [.unit] }.turns = .unit :: [] ∧ (idleState []).turns = [] ∧ (busyState []).turns = [] := by
  decide

theorem witness_FetchedWordRunsNext : decodeTableWord 32 0x00000005 = some (.mask 0 0 false) := by decide

theorem witness_BothOrdersOfWriteAndCompletion :
    (busyState [.write 0x100 4 1]).hostFault = none ∧ (busyState [.write 0x100 4 1]).busy = true ∧
      (busyState [.write 0x100 4 1]).inflight = some { cmd := 1, a := 5, b := 0 } ∧
      (busyState [.write 0x100 4 1]).host = .write ((busyState []).config.regBase + 0x00) 4 1 :: [] ∧
      { busyState [.write 0x100 4 1] with turns := [.host] }.turns = .host :: [] ∧
      { busyState [.write 0x100 4 1] with turns := [.unit, .host] }.turns = .unit :: .host :: [] := by decide

/-- A step for each event that changes STATUS: an accept, a completion and a reset. -/
theorem witness_StatusChangesOnlyAtItsEvents :
    (step (idleState [.write 0x100 4 6]) =
        .next { idleState [] with status := 1, inflight := some { cmd := 6, a := 0, b := 0 } } ∧
      step (busyState []) = .next { idleState [] with res := 0x05000000 } ∧
      step { busyState [] with turns := [.reset] } = .next (idleState [])) ∧
    (1 : Word) ≠ (idleState []).status ∧ (idleState []).status ≠ (busyState []).status :=
  ⟨⟨step_of_stepsTo (by decide), step_of_stepsTo (by decide), step_of_stepsTo (by decide)⟩, by decide, by decide⟩

/-- A completion that changes RES. -/
theorem witness_ResultChangesOnlyAtSuccess :
    step (busyState []) = .next { idleState [] with res := 0x05000000 } ∧
      { idleState [] with res := 0x05000000 }.res ≠ (busyState []).res :=
  ⟨step_of_stepsTo (by decide), by decide⟩

theorem witness_OperandsChangeOnlyByTheHostOrReset :
    step (idleState [.write 0x104 4 7]) = .next { idleState [] with opa := 7 } ∧
      { idleState [] with opa := 7 }.opa ≠ (idleState []).opa ∧
      step (idleState [.write 0x108 4 7]) = .next { idleState [] with opb := 7 } ∧
      { idleState [] with opb := 7 }.opb ≠ (idleState []).opb :=
  ⟨step_of_stepsTo (by decide), by decide, step_of_stepsTo (by decide), by decide⟩

theorem witness_BufChangesOnlyByHostStores :
    step (idleState [.storeBuf 3 9]) = .next { idleState [] with buf := [(3, 9)] } ∧
      { idleState [] with buf := [(3, 9)] }.buf ≠ (idleState []).buf :=
  ⟨step_of_stepsTo (by decide), by decide⟩

theorem witness_BusyExactlyWhileInFlight :
    (statusBusy (busyState []).status = true ↔ (busyState []).inflight ≠ none) ∧
      step (busyState []) = .next { idleState [] with res := 0x05000000 } :=
  ⟨by decide, step_of_stepsTo (by decide)⟩

theorem witness_StepKeepsTheMachineWellFormed :
    ∃ s t : State, Inv s ∧ step s = .next t ∧ s.busy = true ∧ s.buf ≠ [] :=
  ⟨inFlightState 1 5 0 [(15, 3)], { inFlightState 1 5 0 [(15, 3)] with res := 0x05000000, status := 0, inflight := none },
    ⟨by decide, by decide, by decide, by decide, by decide⟩, step_of_stepsTo (by decide), by decide, by decide⟩

theorem witness_ResetIsWellFormed :
    Config.wf { bufSize := 2 ^ 32, regBase := 5 } ∧
      bufWf { bufSize := 2 ^ 32, regBase := 5 } [(0, 1), (2 ^ 32 - 1, 0xFF)] := by decide

theorem witness_CommandInFlightEndsUnderEverySchedule :
    { busyState [.wait] with turns := [.host, .host] }.inflight ≠ none ∧
      { busyState [.reset] with turns := [.reset] }.inflight ≠ none := by decide

/-- A host that reads, polls and writes while the command is in flight, up to the window's last slot. -/
theorem witness_EveryAcceptedCommandCompletes :
    (∀ s ∈ [{ busyState [.read 0x11C 4, .write 0x100 4 4, .wait] with turns := [.host, .host, .host] }],
      s.inflight = some { cmd := 1, a := 5, b := 0 } ∧ s.busy = true ∧ Turn.reset ∉ s.turns ∧
        HostAction.reset ∉ s.host ∧ s.hostFault = none) ∧
    ∀ act ∈ (busyState [.read 0x11C 4, .write 0x100 4 4, .wait]).host, actionHasMeaningWhileBusy (busyState []).config act := by
  refine ⟨by decide, ?_⟩
  intro act h
  simp only [busyState, idleState, List.mem_cons, List.not_mem_nil, or_false] at h
  obtain rfl | rfl | rfl := h
  · exact .inr ⟨0x1C, by decide, by decide, .inl rfl⟩
  · exact .inr ⟨0x00, by decide, by decide, .inr ⟨_, rfl⟩⟩
  · exact .inl rfl

theorem witness_EndedRunStaysEnded :
    runEnded (idleState []) ∧ (idleState []).turns = [] ∧ (idleState []).inflight = none := by decide

end Sys2Proof.Tests
end

/-! PROOFS. The host's writes to CMD, OPA and OPB, and BUSY against INFLIGHT (10_state.md rules R25 to R28). -/

namespace Sys2Proof.Proofs.Registers

open Sys2Proof Sys2Proof.Machine

/-! ### A write to CMD (rules R20, R26, R27) -/

theorem cmdWrite_of_idle {s : State} (hb : s.busy = false) (w : Word) : cmdWrite w s = accept w s := by
  rw [cmdWrite, hb]; rfl

theorem cmdWrite_of_busy {s : State} (hb : s.busy = true) (w : Word) : cmdWrite w s = dropCmd s := by
  rw [cmdWrite, hb]; rfl

/-- The slot at offset 0 is CMD (rule R16). -/
theorem hostTurn_writeCmd {s : State} {w : Word} {rest : List HostAction}
    (h : s.host = .write (s.config.regBase + 0x00) 4 w :: rest) :
    hostTurn s = cmdWrite w (advanceHost rest s) :=
  hostTurn_write h (by decide) (by decide)

/-- Settles O9: the write reaches `accept`, and STATUS is what its three setters leave. -/
theorem commandWriteIsAcceptedWhenIdle : Obligations.CommandWriteIsAcceptedWhenIdle := by
  intro s w rest hh hb
  have ht : hostTurn s = accept w (advanceHost rest s) :=
    (hostTurn_writeCmd hh).trans (cmdWrite_of_idle (s := advanceHost rest s) hb w)
  exact ⟨_, ht, rfl, by simp, by simp, by simp, by simp⟩

/-- Settles O10: the write reaches `dropCmd`, whose only effect is STATUS.DROP. -/
theorem commandWriteIsDroppedWhenBusy : Obligations.CommandWriteIsDroppedWhenBusy := by
  intro s w rest hh hb
  have ht : hostTurn s = dropCmd (advanceHost rest s) :=
    (hostTurn_writeCmd hh).trans (cmdWrite_of_busy (s := advanceHost rest s) hb w)
  have hbusy : statusBusy s.status = true := hb
  exact ⟨_, ht, rfl, by simp, by simpa using hbusy, by simp, by simp⟩

/-! ### A write to OPA or OPB (rule R28) -/

/-- The state with OPA and OPB rewritten. -/
def withOperands (x y : Word) (s : State) : State := { s with opa := x, opb := y }

@[simp] theorem withOperands_inflight (x y : Word) (s : State) : (withOperands x y s).inflight = s.inflight := rfl

/-- The outcome of `Execute` reads the latched operands, never OPA and OPB (rule R31). -/
theorem wordOutcome_withOperands (c : Word) (f : InFlight) (x y : Word) (s : State) :
    wordOutcome c f (withOperands x y s) = wordOutcome c f s :=
  wordOutcome_congr c f rfl rfl rfl

theorem wordDraw_withOperands (c x y : Word) (s : State) :
    wordDraw c (withOperands x y s) = withOperands x y (wordDraw c s) := by
  unfold wordDraw
  cases decode c with
  | legal i => cases i <;> rfl
  | illegal _ => rfl

theorem complete_withOperands (o : Except ErrCode DWord) (x y : Word) (s : State) :
    complete o (withOperands x y s) = withOperands x y (complete o s) := by
  cases o <;> rfl

/-- Rewriting OPA and OPB commutes with the unit's turn. -/
theorem unitTurn_withOperands (x y : Word) (s : State) :
    ∃ t, unitTurn s = .next t ∧ unitTurn (withOperands x y s) = .next (withOperands x y t) := by
  cases hf : s.inflight with
  | none => exact ⟨s, unitTurn_idle hf, unitTurn_idle hf⟩
  | some f =>
    refine ⟨_, unitTurn_inFlight hf, ?_⟩
    rw [unitTurn_inFlight (f := f) (by simpa using hf), wordOutcome_withOperands, wordDraw_withOperands,
      complete_withOperands]

/-- Settles O11: the slots at offsets 4 and 8 are OPA and OPB, and the unit's turn commutes with rewriting both. -/
theorem operandWritesLeaveTheCommandInFlight : Obligations.OperandWritesLeaveTheCommandInFlight := by
  refine ⟨fun s v rest hh => ?_, fun s v rest hh => ?_, fun s x y => unitTurn_withOperands x y s⟩
  · exact hostTurn_write hh (by decide) (by decide)
  · exact hostTurn_write hh (by decide) (by decide)

/-! ### BUSY and INFLIGHT (rule R25) -/

/-- `STATUS.BUSY = 1` exactly when `INFLIGHT ≠ none` (rule R25). -/
def BusyIffInFlight (s : State) : Prop := statusBusy s.status = true ↔ s.inflight ≠ none

/-- An update that touches neither STATUS nor INFLIGHT keeps it. -/
theorem BusyIffInFlight.congr {s t : State} (h : BusyIffInFlight s) (hs : t.status = s.status)
    (hi : t.inflight = s.inflight) : BusyIffInFlight t := by
  rwa [BusyIffInFlight, hs, hi]

theorem busyIffInFlight_accept (w : Word) (s : State) : BusyIffInFlight (accept w s) := by
  simp [BusyIffInFlight]

theorem BusyIffInFlight.after_dropCmd {s : State} (h : BusyIffInFlight s) : BusyIffInFlight (dropCmd s) := by
  simpa [BusyIffInFlight] using h

theorem busyIffInFlight_resetBlock (s : State) : BusyIffInFlight (resetBlock s) := by
  simp [BusyIffInFlight, resetBlock, statusBusy]

theorem busyIffInFlight_resetWith (c : Config) (m : Memory) : BusyIffInFlight (State.resetWith c m) := by
  simp [BusyIffInFlight, statusBusy]

theorem busyIffInFlight_complete (o : Except ErrCode DWord) (s : State) : BusyIffInFlight (complete o s) := by
  have hi : (complete o s).inflight = none := by rw [complete_eq]
  simp [BusyIffInFlight, hi]

theorem BusyIffInFlight.after_regWrite {s : State} (h : BusyIffInFlight s) (off : Nat) (v : Word) :
    BusyIffInFlight (regWrite off v s) := by
  rcases regWrite_cases off v s with
    ⟨-, -, e⟩ | ⟨-, -, e⟩ | ⟨-, e⟩ | ⟨-, e⟩ | ⟨-, -, -, e⟩ <;> rw [e]
  · exact h.after_dropCmd
  · exact busyIffInFlight_accept v s
  · exact h.congr rfl rfl
  · exact h.congr rfl rfl
  · exact h

theorem BusyIffInFlight.after_hostAct {s : State} (h : BusyIffInFlight s) (act : HostAction) :
    BusyIffInFlight (hostAct act s) := by
  rcases hostAct_cases act s with
    e | ⟨_, e⟩ | ⟨_, _, -, _, e⟩ | ⟨_, _, v, -, -, -, e⟩ | ⟨_, _, -, -, -, e⟩ | ⟨-, e⟩ <;> rw [e]
  · exact h
  · exact h.congr rfl rfl
  · exact h.congr rfl rfl
  · exact h.after_regWrite _ v
  · exact h.congr rfl rfl
  · exact busyIffInFlight_resetBlock s

theorem BusyIffInFlight.after_hostTurn {s : State} (h : BusyIffInFlight s) : BusyIffInFlight (hostTurn s) := by
  rcases hostTurn_cases s with ⟨e, -⟩ | ⟨act, rest, -, -, e⟩ <;> rw [e]
  · exact h
  · exact (h.congr rfl rfl : BusyIffInFlight (advanceHost rest s)).after_hostAct act

theorem BusyIffInFlight.after_step {s t : State} (h : BusyIffInFlight s) (hst : step s = .next t) :
    BusyIffInFlight t := by
  have hpop : BusyIffInFlight (popTurn s) := h.congr rfl rfl
  obtain ⟨-, ⟨-, rfl⟩ | ⟨-, rfl⟩ | ⟨-, -, rfl⟩ | ⟨-, f, -, rfl⟩⟩ := step_cases hst
  · exact busyIffInFlight_resetBlock _
  · exact hpop.after_hostTurn
  · exact hpop
  · exact busyIffInFlight_complete _ _

/-- Settles O52: it holds after reset, and it is inductive over the four kinds of step. -/
theorem busyExactlyWhileInFlight : Obligations.BusyExactlyWhileInFlight :=
  ⟨busyIffInFlight_resetWith, fun _ _ => BusyIffInFlight.after_step⟩

end Sys2Proof.Proofs.Registers

/-! PROOFS. Which words are illegal (30_encoding.md rule R56), and the life of an illegal word. -/

namespace Sys2Proof.Proofs.IllegalWords

open Sys2Proof Sys2Proof.Machine Sys2Proof.Safety Sys2Proof.Proofs.Registers

/-! ### The fields of a word as arithmetic on its number (rule R52) -/

theorem toNat_opField (c : Word) : (opField c).toNat = c.toNat % 16 := by
  simp [opField]

theorem toNat_zFieldN (c : Word) : (zFieldN c).toNat = c.toNat / 16 := by
  have hc := c.isLt
  simp only [zFieldN, BitVec.extractLsb'_toNat, Nat.shiftRight_eq_div_pow]
  omega

theorem toNat_zFieldM (c : Word) : (zFieldM c).toNat = c.toNat / 65536 := by
  have hc := c.isLt
  simp only [zFieldM, BitVec.extractLsb'_toNat, Nat.shiftRight_eq_div_pow]
  omega

theorem opField_eq_iff (c : Word) (v : BitVec 4) : opField c = v ↔ c.toNat % 16 = v.toNat := by
  rw [← BitVec.toNat_inj, toNat_opField]

theorem zFieldN_eq_zero_iff (c : Word) : zFieldN c = 0 ↔ c.toNat / 16 = 0 := by
  rw [← BitVec.toNat_inj, toNat_zFieldN]; rfl

theorem zFieldM_eq_zero_iff (c : Word) : zFieldM c = 0 ↔ c.toNat / 65536 = 0 := by
  rw [← BitVec.toNat_inj, toNat_zFieldM]; rfl

/-! ### Which words are illegal (rule R56) -/

/-- Clause 2 of rule R56, format N. -/
theorem decodeFormatN_illegal_iff (c : Word) (i : Instr) :
    (∃ why, decodeFormatN c i = .illegal why) ↔ c.toNat / 16 ≠ 0 := by
  rw [ne_eq, ← zFieldN_eq_zero_iff, decodeFormatN]
  split
  next h => simp [h]
  next h => exact ⟨fun _ => h, fun _ => ⟨_, rfl⟩⟩

/-- Clause 2 of rule R56, format M. -/
theorem decodeFormatM_illegal_iff (c : Word) :
    (∃ why, decodeFormatM c = .illegal why) ↔ c.toNat / 65536 ≠ 0 := by
  rw [ne_eq, ← zFieldM_eq_zero_iff, decodeFormatM]
  split
  next h => simp [h]
  next h => exact ⟨fun _ => h, fun _ => ⟨_, rfl⟩⟩

/-- Rule R56: OP picks the clause, and with an assigned OP the row's Z field decides. -/
theorem decode_illegal_iff (c : Word) :
    (∃ why, decode c = .illegal why) ↔
      ((c.toNat % 16 = 0 ∨ 6 ≤ c.toNat % 16) ∨
        (1 ≤ c.toNat % 16 ∧ c.toNat % 16 ≤ 4 ∧ c.toNat / 16 ≠ 0) ∨
        (c.toNat % 16 = 5 ∧ c.toNat / 65536 ≠ 0)) := by
  simp only [decode, opField_eq_iff, BitVec.ofNat_eq_ofNat, BitVec.reduceToNat]
  split_ifs
  · rw [decodeFormatN_illegal_iff]; omega
  · rw [decodeFormatN_illegal_iff]; omega
  · rw [decodeFormatN_illegal_iff]; omega
  · rw [decodeFormatN_illegal_iff]; omega
  · rw [decodeFormatM_illegal_iff]; omega
  · have unassigned : c.toNat % 16 = 0 ∨ 6 ≤ c.toNat % 16 := by omega
    exact ⟨fun _ => .inl unassigned, fun _ => ⟨_, rfl⟩⟩

/-! ### The completion of an illegal word (rules R56, R92) -/

/-- Whatever else the state holds, the unit's turn on an illegal word raises ILLEGAL. -/
theorem unitTurn_of_illegal {s : State} {f : InFlight} {why : IllegalWord} (hf : s.inflight = some f)
    (hd : decode f.cmd = .illegal why) : unitTurn s = .next (raiseErr .illegal s) := by
  have outcome : wordOutcome f.cmd f s = .error .illegal := by rw [wordOutcome, hd]
  have draw : wordDraw f.cmd s = s := by rw [wordDraw, hd]
  rw [unitTurn_inFlight hf, outcome, draw, complete_error]

theorem completedErr_raiseErr (e : ErrCode) (s : State) : completedErr (errCode e) s (raiseErr e s) := by
  simp [completedErr, completionFrame]

/-- Settles O6: the words are those of `decode_illegal_iff`, an idle CMD write is `accept`, and an illegal word's
completion is `raiseErr .illegal` of whatever state it meets. -/
theorem illegalWordIsAcceptedAndOnlySetsErr : Obligations.IllegalWordIsAcceptedAndOnlySetsErr := by
  refine ⟨decode_illegal_iff, fun c s hb => ?accepted, fun s f why hf hd => ?completes, fun s f hf => ?defined⟩
  case accepted =>
    rw [cmdWrite_of_idle hb]
    exact ⟨rfl, by simp [State.busy]⟩
  case completes =>
    refine ⟨raiseErr .illegal s, unitTurn_of_illegal hf hd, completedErr_raiseErr .illegal s, ?_⟩
    intro a b m x y
    exact unitTurn_of_illegal (f := { cmd := f.cmd, a := a, b := b }) rfl hd
  case defined => exact ⟨_, unitTurn_inFlight hf⟩

end Sys2Proof.Proofs.IllegalWords

/-! PROOFS. SWAP32 and SWAP16 (40_byte_order_swapper.md rules R64, R65). -/

namespace Sys2Proof.Proofs.Swapper

open Sys2Proof Sys2Proof.Machine Sys2Proof.Safety

/-! ### The completion with a 32-bit result (rules R19, R30) -/

theorem zext64_eq_append (w : Word) : zext64 w = 0#32 ++ w :=
  BitVec.setWidth_eq_append (by decide)

@[simp] theorem resLo_zext64 (w : Word) : resLo (zext64 w) = w := by
  rw [resLo, zext64_eq_append, BitVec.extractLsb'_append_eq_right]

@[simp] theorem resHi_zext64 (w : Word) : resHi (zext64 w) = 0 := by
  rw [resHi, zext64_eq_append, BitVec.extractLsb'_append_eq_left]
  rfl

theorem completedOk_completeOk (r : DWord) (s : State) : completedOk s (completeOk r s) := by
  simp [completedOk, completionFrame]

/-- A command whose outcome is a zero-extended word, and which takes no draw, completes with that word in RESLO. -/
theorem exec_completes_with_word {s : State} {f : InFlight} {i : Instr} {w : Word} (hf : s.inflight = some f)
    (outcome : outcomeOf i f s = .ok (zext64 w)) (draw : drawOf i s = s) :
    ∃ t, exec i s = .next t ∧ completedOk s t ∧ t.draws = s.draws ∧ resHi t.res = 0 ∧ resLo t.res = w := by
  refine ⟨completeOk (zext64 w) s, ?_, completedOk_completeOk _ s, rfl, resHi_zext64 w, resLo_zext64 w⟩
  rw [exec_inFlight hf, outcome, draw, complete_ok]

/-! ### SWAP32 (rule R64) -/

/-- The bytes of a word written as four bytes, the top one first. -/
theorem bytes_of_append (b3 b2 b1 b0 : Byte) :
    (b3 ++ b2 ++ b1 ++ b0).extractLsb' 24 8 = b3 ∧ (b3 ++ b2 ++ b1 ++ b0).extractLsb' 16 8 = b2 ∧
      (b3 ++ b2 ++ b1 ++ b0).extractLsb' 8 8 = b1 ∧ (b3 ++ b2 ++ b1 ++ b0).extractLsb' 0 8 = b0 := by
  refine ⟨?_, ?_, ?_, BitVec.extractLsb'_append_eq_right⟩
  · rw [BitVec.extractLsb'_append_eq_of_le (by decide), BitVec.extractLsb'_append_eq_of_le (by decide)]
    exact BitVec.extractLsb'_append_eq_left
  · rw [BitVec.extractLsb'_append_eq_of_le (by decide), BitVec.extractLsb'_append_eq_of_le (by decide)]
    exact BitVec.extractLsb'_append_eq_right
  · rw [BitVec.extractLsb'_append_eq_of_le (by decide)]
    exact BitVec.extractLsb'_append_eq_right

/-- Settles O17: the completion's word is `swap32` of the latched OPA, four bytes appended in reverse order. -/
theorem swap32ReversesTheFourBytes : Obligations.Swap32ReversesTheFourBytes := by
  refine ⟨fun s f hf => ?_, by decide⟩
  obtain ⟨t, hexec, hdone, hdraws, hhi, hlo⟩ :=
    exec_completes_with_word (i := .swap32) (w := swap32 f.a) hf rfl rfl
  refine ⟨t, hexec, hdone, hdraws, hhi, ?_⟩
  rw [hlo]
  exact bytes_of_append _ _ _ _

/-! ### SWAP16 (rule R65) -/

/-- The 16-bit value that SWAP16 sign-extends: the two low bytes, swapped. -/
def swappedHalf (a : Word) : BitVec 16 := a.extractLsb' 0 8 ++ a.extractLsb' 8 8

theorem swap16_eq_signExtend (a : Word) : swap16 a = (swappedHalf a).signExtend 32 := rfl

/-- The swapped half's sign is bit 7 of the operand, the top bit of its lowest byte. -/
theorem msb_swappedHalf (a : Word) : (swappedHalf a).msb = a.getLsbD 7 := by
  rw [swappedHalf, BitVec.msb_append]
  simp [BitVec.msb_eq_getLsbD_last]

/-- The sign extension written out: sixteen copies of the sign above the swapped half. -/
theorem swap16_eq_append (a : Word) :
    swap16 a = (if a.getLsbD 7 then 0xFFFF#16 else 0x0000#16) ++ swappedHalf a := by
  rw [swap16_eq_signExtend, BitVec.signExtend_eq_append_of_le (by decide), msb_swappedHalf]
  rfl

theorem highHalf_swap16 (a : Word) :
    (swap16 a).extractLsb' 16 16 = if a.getLsbD 7 then 0xFFFF else 0x0000 := by
  rw [swap16_eq_append, BitVec.extractLsb'_append_eq_left]
  rfl

theorem lowHalf_swap16 (a : Word) : (swap16 a).extractLsb' 0 16 = swappedHalf a := by
  rw [swap16_eq_append, BitVec.extractLsb'_append_eq_right]

theorem byte1_swap16 (a : Word) : (swap16 a).extractLsb' 8 8 = a.extractLsb' 0 8 := by
  rw [swap16_eq_append, BitVec.extractLsb'_append_eq_of_add_le (by decide), swappedHalf,
    BitVec.extractLsb'_append_eq_left]

theorem byte0_swap16 (a : Word) : (swap16 a).extractLsb' 0 8 = a.extractLsb' 8 8 := by
  rw [swap16_eq_append, BitVec.extractLsb'_append_eq_of_add_le (by decide), swappedHalf,
    BitVec.extractLsb'_append_eq_right]

/-- As a signed number the result is its own low half. -/
theorem toInt_swap16 (a : Word) : (swap16 a).toInt = ((swap16 a).extractLsb' 0 16).toInt := by
  rw [lowHalf_swap16, swap16_eq_signExtend, BitVec.toInt_signExtend_of_le (by decide)]

/-- Settles O18: the completion's word is `swap16` of the latched OPA, read byte by byte, by its high half and as a
signed number. -/
theorem swap16SwapsAndSignExtends : Obligations.Swap16SwapsAndSignExtends := by
  refine ⟨fun s f hf => ?_, by decide⟩
  obtain ⟨t, hexec, hdone, hdraws, hhi, hlo⟩ :=
    exec_completes_with_word (i := .swap16) (w := swap16 f.a) hf rfl rfl
  refine ⟨t, hexec, hdone, hdraws, hhi, ?_⟩
  rw [hlo]
  exact ⟨byte1_swap16 f.a, byte0_swap16 f.a, highHalf_swap16 f.a, toInt_swap16 f.a⟩

end Sys2Proof.Proofs.Swapper

/-! PROOFS. BTD (41_double_reconstructor.md rules R68, R70). -/

namespace Sys2Proof.Proofs.DoubleReconstructor

open Sys2Proof Sys2Proof.Machine Sys2Proof.Safety Sys2Proof.Proofs.Swapper

/-! ### The completion of BTD in bounds (rules R37, R68) -/

/-- The pattern D: the eight bytes of BUF at the latched offset (rule R68). -/
def latchedPattern (s : State) (f : InFlight) : DWord := memRead s.buf f.a.toNat 8

theorem inBuf_iff {c : Config} {addr n : Nat} : inBuf c addr n = true ↔ addr + n ≤ c.bufSize :=
  decide_eq_true_iff

/-- In bounds, BTD's outcome is the reconstructed double and never an error. -/
theorem outcomeOf_btd_of_inBuf {s : State} {f : InFlight} (hin : f.a.toNat + 8 ≤ s.config.bufSize) :
    outcomeOf .btd f s = .ok (bytesToDouble (latchedPattern s f)) :=
  if_pos (inBuf_iff.mpr hin)

/-- In bounds, BTD completes with the reconstructed double in RES and takes no draw. -/
theorem exec_btd_completes {s : State} {f : InFlight} (hf : s.inflight = some f)
    (hin : f.a.toNat + 8 ≤ s.config.bufSize) :
    ∃ t, exec .btd s = .next t ∧ completedOk s t ∧ t.draws = s.draws ∧
      t.res = bytesToDouble (latchedPattern s f) := by
  refine ⟨completeOk (bytesToDouble (latchedPattern s f)) s, ?_, completedOk_completeOk _ s, rfl, rfl⟩
  rw [exec_inFlight hf, outcomeOf_btd_of_inBuf hin, complete_ok]
  rfl

/-! ### Exponent zero (rule R70) -/

/-- The exponent alone decides: the sign bit and the mantissa are discarded. -/
theorem bytesToDouble_of_exp_zero {d : DWord} (he : doubleExp d = 0) : bytesToDouble d = plusZero :=
  if_pos he

/-- Settles O23: in bounds RES is `bytesToDouble` of the latched pattern, which is +0.0 at exponent zero. -/
theorem btdFlushesExponentZero : Obligations.BtdFlushesExponentZero := by
  intro s f hf hin he
  have hexp : doubleExp (latchedPattern s f) = 0 := BitVec.eq_of_toNat_eq he
  obtain ⟨t, hexec, hdone, hdraws, hres⟩ := exec_btd_completes hf hin
  exact ⟨t, hexec, hdone, hdraws, hres.trans (bytesToDouble_of_exp_zero hexp)⟩

end Sys2Proof.Proofs.DoubleReconstructor

/-! PROOFS. The CRC-32 engine: its table and CRC32 (42_crc32_engine.md rules R75, R77). -/

namespace Sys2Proof.Proofs.CrcEngine

open Sys2Proof Sys2Proof.Machine Sys2Proof.Safety Sys2Proof.Proofs.IllegalWords Sys2Proof.Proofs.Swapper
  Sys2Proof.Proofs.DoubleReconstructor

/-! ### The table (rule R75) -/

theorem crcRounds_eq_iterate (k : Nat) (v : Word) : crcRounds k v = crcRound^[k] v := by
  induction k generalizing v with
  | zero => rfl
  | succ k ih => exact ih (crcRound v)

theorem crcTable_eq_iterate (n : Byte) : crcTable n = crcRound^[8] (n.setWidth 32) :=
  crcRounds_eq_iterate 8 _

/-- Settles O28: the machine's eight rounds are the eighth iterate of the one round the rule writes out. -/
theorem crcTableIsGenerated : Obligations.CrcTableIsGenerated :=
  crcTable_eq_iterate

/-! ### The fold over the range (rules R77, R78) -/

/-- One byte into the accumulator, the table's index written as a truncation to 8 bits. -/
theorem crcUpdate_eq_setWidth (acc : Word) (x : Byte) :
    crcUpdate acc x = (acc >>> 8) ^^^ crcTable ((acc ^^^ x.setWidth 32).setWidth 8) := by
  rw [crcUpdate, ← BitVec.setWidth_eq_extractLsb' (by decide)]

/-- The recursion over the range is the fold over the bytes at `a`, `a + 1`, …. -/
theorem crcRange_eq_foldl (m : Memory) (a b : Nat) (acc : Word) :
    crcRange m a b acc = (List.range b).foldl (fun acc i => crcUpdate acc (m.read (a + i))) acc := by
  induction b generalizing a acc with
  | zero => rfl
  | succ b ih =>
    have shift : ∀ i, a + 1 + i = a + i.succ := fun i => by omega
    rw [crcRange, ih, List.range_succ_eq_map, List.foldl_cons, List.foldl_map]
    simp only [shift, Nat.add_zero]

theorem crc32_eq_compl_foldl (m : Memory) (a b : Nat) :
    crc32 m a b = ~~~ ((List.range b).foldl (fun acc i => crcUpdate acc (m.read (a + i))) crcInit) := by
  rw [crc32, crcRange_eq_foldl]

/-! ### The outcome of CRC32 (rules R77, R79, R93) -/

/-- The test that `crcOutcome` makes before any byte is read. -/
theorem crcOutOfBounds_iff {c : Config} {a b : Nat} :
    (decide (0 < b) && !inBuf c a b) = true ↔ 0 < b ∧ a + b > c.bufSize := by
  rw [Bool.and_eq_true, decide_eq_true_iff, Bool.not_eq_true', ← Bool.not_eq_true, inBuf_iff, Nat.not_le]

/-- An empty range, or one in bounds, has the CRC as its outcome. -/
theorem outcomeOf_crc32_of_inBuf {s : State} {f : InFlight}
    (hin : f.b.toNat = 0 ∨ f.a.toNat + f.b.toNat ≤ s.config.bufSize) :
    outcomeOf .crc32 f s = .ok (zext64 (crc32 s.buf f.a.toNat f.b.toNat)) := by
  refine if_neg fun oob => ?_
  obtain ⟨hpos, hout⟩ := crcOutOfBounds_iff.mp oob
  exact hin.elim (Nat.ne_of_gt hpos) (Nat.not_le.mpr hout)

/-- A non-empty range past BUF_SIZE is out of bounds. -/
theorem outcomeOf_crc32_of_not_inBuf {s : State} {f : InFlight} (hpos : 0 < f.b.toNat)
    (hout : f.a.toNat + f.b.toNat > s.config.bufSize) : outcomeOf .crc32 f s = .error .oob :=
  if_pos (crcOutOfBounds_iff.mpr ⟨hpos, hout⟩)

/-- CRC32 out of bounds raises OOB and does nothing else. -/
theorem exec_crc32_of_not_inBuf {s : State} {f : InFlight} (hf : s.inflight = some f) (hpos : 0 < f.b.toNat)
    (hout : f.a.toNat + f.b.toNat > s.config.bufSize) : exec .crc32 s = .next (raiseErr .oob s) := by
  rw [exec_inFlight hf, outcomeOf_crc32_of_not_inBuf hpos hout, complete_error]
  rfl

/-- The check value of the CRC-32 of rule R77, over the digits 1 to 9. -/
theorem crc32_of_digits :
    crc32 [(0, 0x31), (1, 0x32), (2, 0x33), (3, 0x34), (4, 0x35), (5, 0x36), (6, 0x37), (7, 0x38), (8, 0x39)] 0 9 =
      0xCBF43926 := by decide

/-- Settles O30: in bounds the completion's word is `crc32` of the range, which is the complement of the fold; out of
bounds the completion is `raiseErr .oob`. -/
theorem crc32FoldsItsRange : Obligations.Crc32FoldsItsRange := by
  refine ⟨fun s f hf => ⟨fun hin => ?inBounds, fun hpos hout => ?outOfBounds⟩, crc32_of_digits⟩
  case inBounds =>
    obtain ⟨t, hexec, hdone, hdraws, hhi, hlo⟩ := exec_completes_with_word hf (outcomeOf_crc32_of_inBuf hin) rfl
    refine ⟨t, hexec, hdone, hdraws, hhi, ?_⟩
    simp only [hlo, crc32_eq_compl_foldl, crcUpdate_eq_setWidth, crcInit]
  case outOfBounds =>
    exact ⟨_, exec_crc32_of_not_inBuf hf hpos hout, completedErr_raiseErr .oob s⟩

end Sys2Proof.Proofs.CrcEngine

/-! PROOFS. MASK's signed case (43_bit_mask_builder.md rule R86). -/

namespace Sys2Proof.Proofs.BitMaskBuilder

open Sys2Proof Sys2Proof.Machine Sys2Proof.Safety Sys2Proof.Proofs.Swapper

/-- U = 0 alone decides the mask: numBytes, bitsStored and the draw are discarded. -/
theorem maskValue_signed (nb bs : Nat) (dm : Word) : maskValue nb bs false dm = 0xFFFFFFFF := rfl

theorem maskDraws_signed (nb : Nat) : maskDraws nb false = false := rfl

/-- A signed MASK leaves the index of the next draw where it is. -/
theorem takeDraw_signed (nb : Nat) (s : State) : takeDraw nb false s = s := by
  rw [takeDraw, maskDraws_signed]
  rfl

theorem outcomeOf_mask_signed (nb bs : Nat) (f : InFlight) (s : State) :
    outcomeOf (.mask nb bs false) f s = .ok (zext64 0xFFFFFFFF) := by
  rw [outcomeOf, maskValue_signed]

/-- Settles O36: the outcome is the zero-extended all-ones word, whatever nb and bs, and no draw is taken before the
completion. -/
theorem maskSignedIsAllOnes : Obligations.MaskSignedIsAllOnes := by
  intro s f nb bs hf
  refine ⟨completeOk (zext64 0xFFFFFFFF) s, ?_, completedOk_completeOk _ s, rfl, rfl⟩
  rw [exec_inFlight hf, outcomeOf_mask_signed, complete_ok, drawOf, takeDraw_signed]

end Sys2Proof.Proofs.BitMaskBuilder

/-! PROOFS. The two errors: which completions raise ILLEGAL or OOB, and what an error leaves unchanged
(60_exceptions.md rules R90 to R93). -/

namespace Sys2Proof.Proofs.Exceptions

open Sys2Proof Sys2Proof.Machine Sys2Proof.Safety Sys2Proof.Proofs.IllegalWords Sys2Proof.Proofs.DoubleReconstructor
  Sys2Proof.Proofs.CrcEngine

/-! ### The ERR code of an outcome (rule R91) -/

theorem errCode_inj {e e' : ErrCode} : errCode e = errCode e' ↔ e = e' := by
  cases e <;> cases e' <;> decide

theorem errCode_ne_zero (e : ErrCode) : errCode e ≠ 0x0 := by
  cases e <;> decide

/-- The two error codes differ from each other and from OK, so ERR tells which error an outcome is. -/
theorem outcomeErr_eq_errCode_iff {o : Except ErrCode DWord} {e : ErrCode} :
    outcomeErr o = errCode e ↔ o = .error e := by
  cases o with
  | ok r => exact iff_of_false (errCode_ne_zero e).symm nofun
  | error e' => rw [outcomeErr, errCode_inj, Except.error.injEq]

/-! ### The errors of a decoded command (rule R93) -/

theorem outcomeOf_btd_eq_error_iff {f : InFlight} {s : State} {e : ErrCode} :
    outcomeOf .btd f s = .error e ↔ e = .oob ∧ f.a.toNat + 8 > s.config.bufSize := by
  by_cases hin : f.a.toNat + 8 ≤ s.config.bufSize
  · simp [outcomeOf_btd_of_inBuf hin, hin]
  · have raised : outcomeOf .btd f s = .error .oob := if_neg (mt inBuf_iff.mp hin)
    simp [raised, Nat.lt_of_not_le hin, eq_comm]

theorem outcomeOf_crc32_eq_error_iff {f : InFlight} {s : State} {e : ErrCode} :
    outcomeOf .crc32 f s = .error e ↔
      e = .oob ∧ 0 < f.b.toNat ∧ f.a.toNat + f.b.toNat > s.config.bufSize := by
  by_cases hout : 0 < f.b.toNat ∧ f.a.toNat + f.b.toNat > s.config.bufSize
  · obtain ⟨hpos, hpast⟩ := hout
    simp [outcomeOf_crc32_of_not_inBuf hpos hpast, hpos, hpast, eq_comm]
  · have hin : f.b.toNat = 0 ∨ f.a.toNat + f.b.toNat ≤ s.config.bufSize := by omega
    simp [outcomeOf_crc32_of_inBuf hin, hout]

/-- The only error of a decoded command is OOB, and only BTD and CRC32 have it, on a read past BUF_SIZE. -/
theorem outcomeOf_eq_error_iff {i : Instr} {f : InFlight} {s : State} {e : ErrCode} :
    outcomeOf i f s = .error e ↔
      e = .oob ∧ ((i = .btd ∧ f.a.toNat + 8 > s.config.bufSize) ∨
        (i = .crc32 ∧ 0 < f.b.toNat ∧ f.a.toNat + f.b.toNat > s.config.bufSize)) := by
  cases i with
  | swap32 => simp [outcomeOf]
  | swap16 => simp [outcomeOf]
  | btd => simp [outcomeOf_btd_eq_error_iff]
  | crc32 => simp [outcomeOf_crc32_eq_error_iff]
  | mask nb bs u => simp [outcomeOf]

/-! ### The errors of a command word (rules R92, R93) -/

theorem wordOutcome_of_legal {c : Word} {i : Instr} (hd : decode c = .legal i) (f : InFlight) (s : State) :
    wordOutcome c f s = outcomeOf i f s := by
  rw [wordOutcome, hd]

theorem wordOutcome_of_illegal {c : Word} {why : IllegalWord} (hd : decode c = .illegal why) (f : InFlight)
    (s : State) : wordOutcome c f s = .error .illegal := by
  rw [wordOutcome, hd]

/-- No decoded command raises ILLEGAL, so the word alone decides. -/
theorem wordOutcome_eq_illegal_iff {c : Word} {f : InFlight} {s : State} :
    wordOutcome c f s = .error .illegal ↔ ∃ why, decode c = .illegal why := by
  cases hd : decode c with
  | legal i => simp [wordOutcome_of_legal hd, outcomeOf_eq_error_iff]
  | illegal why => simp [wordOutcome_of_illegal hd]

theorem wordOutcome_eq_oob_iff {c : Word} {f : InFlight} {s : State} :
    wordOutcome c f s = .error .oob ↔
      (decode c = .legal .btd ∧ f.a.toNat + 8 > s.config.bufSize) ∨
      (decode c = .legal .crc32 ∧ 0 < f.b.toNat ∧ f.a.toNat + f.b.toNat > s.config.bufSize) := by
  cases hd : decode c with
  | legal i => simp [wordOutcome_of_legal hd, outcomeOf_eq_error_iff]
  | illegal why => simp [wordOutcome_of_illegal hd]

theorem wordDraw_of_legal {c : Word} {i : Instr} (hd : decode c = .legal i) (s : State) :
    wordDraw c s = drawOf i s := by
  rw [wordDraw, hd]

/-- A command that raises an error takes no draw: only MASK draws, and MASK raises none. -/
theorem wordDraw_of_error {c : Word} {f : InFlight} {s : State} {e : ErrCode} (he : wordOutcome c f s = .error e) :
    wordDraw c s = s := by
  cases hd : decode c with
  | illegal why => rw [wordDraw, hd]
  | legal i =>
    rw [wordOutcome_of_legal hd, outcomeOf_eq_error_iff] at he
    obtain ⟨-, ⟨rfl, -⟩ | ⟨rfl, -⟩⟩ := he
    · exact wordDraw_of_legal hd s
    · exact wordDraw_of_legal hd s

/-! ### The unit's turn -/

/-- The unit's turn on an outcome that is an error is `raiseErr` of the state it meets. -/
theorem unitTurn_of_error {s : State} {f : InFlight} {e : ErrCode} (hf : s.inflight = some f)
    (he : wordOutcome f.cmd f s = .error e) : unitTurn s = .next (raiseErr e s) := by
  rw [unitTurn_inFlight hf, he, wordDraw_of_error he, complete_error]

/-- The unit's turn ends with the ERR code of an error exactly when the outcome is that error. -/
theorem unitTurn_raises_iff {s : State} {f : InFlight} (hf : s.inflight = some f) :
    ∃ t, unitTurn s = .next t ∧ ∀ e, statusErr t.status = errCode e ↔ wordOutcome f.cmd f s = .error e :=
  ⟨_, unitTurn_inFlight hf, fun _ => by rw [complete_err, outcomeErr_eq_errCode_iff]⟩

/-! ### The statements -/

/-- Settles O5: ILLEGAL is the outcome of exactly the words that do not decode. -/
theorem illegalRaisedExactlyByIllegalWords : Obligations.IllegalRaisedExactlyByIllegalWords := by
  intro s f hf
  obtain ⟨t, hturn, hraises⟩ := unitTurn_raises_iff hf
  exact ⟨t, hturn, (hraises .illegal).trans (wordOutcome_eq_illegal_iff.trans (decode_illegal_iff f.cmd))⟩

/-- Settles O39: an outcome that is no error leaves ERR = 0, and an error's completion is `raiseErr`, which touches
STATUS and INFLIGHT alone. -/
theorem errorsArePrecise : Obligations.ErrorsArePrecise := by
  intro s f hf
  cases ho : wordOutcome f.cmd f s with
  | ok r =>
    refine ⟨_, unitTurn_inFlight hf, fun hne => absurd ?_ hne⟩
    rw [complete_err, ho, outcomeErr]
  | error e =>
    have herr : statusErr (raiseErr e s).status = errCode e := by simp
    refine ⟨raiseErr e s, unitTurn_of_error hf ho, fun _ => ?_⟩
    rw [herr]
    exact ⟨by cases e <;> simp [errCode], completedErr_raiseErr e s, rfl⟩

/-- Settles O40: OOB is the outcome of exactly a BTD or a CRC32 that would read past BUF_SIZE. -/
theorem oobRaisedExactlyPastTheEnd : Obligations.OobRaisedExactlyPastTheEnd := by
  intro s f hf
  obtain ⟨t, hturn, hraises⟩ := unitTurn_raises_iff hf
  exact ⟨t, hturn, (hraises .oob).trans wordOutcome_eq_oob_iff⟩

end Sys2Proof.Proofs.Exceptions

/-! PROOFS. The words of the commands: decoding word by word, the encoder, and the assembler (30_encoding.md rules R58,
R60, R62, R63). -/

namespace Sys2Proof.Proofs.Encoding

open Sys2Proof Sys2Proof.Machine Sys2Proof.Proofs.IllegalWords

/-! ### Decoding said by arithmetic on the word's number (rules R52, R54, R58) -/

theorem toNat_nbField (c : Word) : (nbField c).toNat = c.toNat / 16 % 16 := by
  simp [nbField, Nat.shiftRight_eq_div_pow]

theorem toNat_bsField (c : Word) : (bsField c).toNat = c.toNat / 256 % 128 := by
  simp [bsField, Nat.shiftRight_eq_div_pow]

theorem uField_eq_decide (c : Word) : uField c = decide (c.toNat / 32768 % 2 = 1) := by
  rw [uField, BitVec.getLsbD, Nat.testBit_eq_decide_div_mod_eq]

/-- The MASK command whose three integers are the fields of `c`. -/
def maskOfFields (c : Word) : Instr :=
  .mask (c.toNat / 16 % 16) (c.toNat / 256 % 128) (decide (c.toNat / 32768 % 2 = 1))

theorem maskOfFields_wellFormed (c : Word) : (maskOfFields c).wellFormed = true := by
  simp only [maskOfFields, Instr.wellFormed, Bool.and_eq_true, decide_eq_true_eq]
  omega

theorem decodeFormatN_eq_legal_iff {c : Word} {i j : Instr} :
    decodeFormatN c i = .legal j ↔ c.toNat / 16 = 0 ∧ j = i := by
  rw [decodeFormatN, ← zFieldN_eq_zero_iff]
  split
  next h => simp [h, eq_comm]
  next h => exact iff_of_false nofun fun hj => h hj.1

theorem decodeFormatM_eq_legal_iff {c : Word} {j : Instr} :
    decodeFormatM c = .legal j ↔ c.toNat / 65536 = 0 ∧ j = maskOfFields c := by
  rw [decodeFormatM, ← zFieldM_eq_zero_iff, toNat_nbField, toNat_bsField, uField_eq_decide]
  split
  next h => simp [h, maskOfFields, eq_comm]
  next h => exact iff_of_false nofun fun hj => h hj.1

/-- Rule R58, row by row: the words that decode to a command. -/
theorem decode_eq_legal_iff {c : Word} {i : Instr} :
    decode c = .legal i ↔
      (c.toNat % 16 = 1 ∧ c.toNat / 16 = 0 ∧ i = .swap32) ∨ (c.toNat % 16 = 2 ∧ c.toNat / 16 = 0 ∧ i = .swap16) ∨
      (c.toNat % 16 = 3 ∧ c.toNat / 16 = 0 ∧ i = .btd) ∨ (c.toNat % 16 = 4 ∧ c.toNat / 16 = 0 ∧ i = .crc32) ∨
      (c.toNat % 16 = 5 ∧ c.toNat / 65536 = 0 ∧ i = maskOfFields c) := by
  simp only [decode, opField_eq_iff, BitVec.ofNat_eq_ofNat, BitVec.reduceToNat]
  split_ifs with h1 h2 h3 h4 h5
  · simp [decodeFormatN_eq_legal_iff, h1]
  · simp [decodeFormatN_eq_legal_iff, h2]
  · simp [decodeFormatN_eq_legal_iff, h3]
  · simp [decodeFormatN_eq_legal_iff, h4]
  · simp [decodeFormatM_eq_legal_iff, h5]
  · simp [h1, h2, h3, h4, h5]

/-- Every command that a word decodes to fits its fields. -/
theorem wellFormed_of_decode {c : Word} {i : Instr} (h : decode c = .legal i) : i.wellFormed = true := by
  obtain ⟨-, -, rfl⟩ | ⟨-, -, rfl⟩ | ⟨-, -, rfl⟩ | ⟨-, -, rfl⟩ | ⟨-, -, rfl⟩ := decode_eq_legal_iff.mp h
  · rfl
  · rfl
  · rfl
  · rfl
  · exact maskOfFields_wellFormed c

/-- No two words decode to one command: the fields and the zero bits together are the whole word. -/
theorem decode_legal_injective {c d : Word} {i : Instr} (hc : decode c = .legal i) (hd : decode d = .legal i) :
    c = d := by
  rw [decode_eq_legal_iff] at hc hd
  apply BitVec.eq_of_toNat_eq
  cases i with
  | swap32 =>
    simp only [maskOfFields, reduceCtorEq, and_false, or_false, and_true] at hc hd
    omega
  | swap16 =>
    simp only [maskOfFields, reduceCtorEq, and_false, or_false, false_or, and_true] at hc hd
    omega
  | btd =>
    simp only [maskOfFields, reduceCtorEq, and_false, or_false, false_or, and_true] at hc hd
    omega
  | crc32 =>
    simp only [maskOfFields, reduceCtorEq, and_false, or_false, false_or, and_true] at hc hd
    omega
  | mask nb bs u =>
    simp only [reduceCtorEq, and_false, false_or, maskOfFields, Instr.mask.injEq] at hc hd
    obtain ⟨opC, zC, nbC, bsC, uC⟩ := hc
    obtain ⟨opD, zD, nbD, bsD, uD⟩ := hd
    have sameU : c.toNat / 32768 % 2 = 1 ↔ d.toNat / 32768 % 2 = 1 := decide_eq_decide.mp (uC.symm.trans uD)
    omega

/-! ### The encoder (rule R63) -/

theorem toNat_encode_mask {nb bs : Nat} (u : Bool) (hnb : nb ≤ 15) (hbs : bs ≤ 127) :
    (encode (.mask nb bs u)).toNat = 0x5 ||| (nb <<< 4) ||| (bs <<< 8) ||| (u.toNat <<< 15) := by
  have nbFits : nb <<< 4 < 2 ^ 32 := by rw [Nat.shiftLeft_eq]; omega
  have bsFits : bs <<< 8 < 2 ^ 32 := by rw [Nat.shiftLeft_eq]; omega
  have uBit : (if u then 1#32 else 0#32).toNat = u.toNat := by cases u <;> rfl
  have uFits : u.toNat <<< 15 < 2 ^ 32 := by cases u <;> decide
  simp only [encode, BitVec.toNat_or, BitVec.toNat_shiftLeft, BitVec.toNat_ofNat, uBit,
    Nat.mod_eq_of_lt (show nb < 2 ^ 32 by omega), Nat.mod_eq_of_lt (show bs < 2 ^ 32 by omega),
    Nat.mod_eq_of_lt nbFits, Nat.mod_eq_of_lt bsFits, Nat.mod_eq_of_lt uFits]

/-- `Decode(Encode(x)) = x`: each command's word holds its row's OP, zeros in Z, and its fields. -/
theorem decode_encode {i : Instr} (h : i.wellFormed = true) : decode (encode i) = .legal i := by
  cases i with
  | swap32 => decide
  | swap16 => decide
  | btd => decide
  | crc32 => decide
  | mask nb bs u =>
    obtain ⟨hop, hz, hnb, hbs, hu⟩ := Laws.EncodedFields.mask nb bs u h
    simp only [decode, hop, decodeFormatM, hz, hnb, hbs, hu]
    rfl

/-- `Encode(Decode(c)) = c`: both words decode to the one command. -/
theorem encode_of_decode {c : Word} {i : Instr} (h : decode c = .legal i) : encode i = c :=
  decode_legal_injective (decode_encode (wellFormed_of_decode h)) h

/-- Settles O1: the round trips are `decode_encode` and `encode_of_decode`. -/
theorem encoderInvertsDecoder : Obligations.EncoderInvertsDecoder :=
  ⟨rfl, rfl, rfl, rfl, fun _ _ u hnb hbs => toNat_encode_mask u hnb hbs, fun _ => decode_encode,
    fun _ _ h => ⟨wellFormed_of_decode h, encode_of_decode h⟩⟩

/-! ### The 4100 legal words (rule R58) -/

/-- The word of MASK with `k` in its twelve field bits. -/
def maskWord (k : Nat) : Word := BitVec.ofNat 32 (16 * k + 5)

/-- The four words of format N, and the words of format M. -/
def legalWords : List Word := [1, 2, 3, 4] ++ (List.range 4096).map maskWord

theorem toNat_maskWord {k : Nat} (h : k < 4096) : (maskWord k).toNat = 16 * k + 5 := by
  rw [maskWord, BitVec.toNat_ofNat]
  omega

theorem mem_legalWords {c : Word} :
    c ∈ legalWords ↔ (1 ≤ c.toNat ∧ c.toNat ≤ 4) ∨ ∃ k < 4096, c.toNat = 16 * k + 5 := by
  have formatN : c ∈ [(1 : Word), 2, 3, 4] ↔ 1 ≤ c.toNat ∧ c.toNat ≤ 4 := by
    simp only [List.mem_cons, List.not_mem_nil, or_false, ← BitVec.toNat_inj, BitVec.ofNat_eq_ofNat,
      BitVec.reduceToNat]
    omega
  have formatM : c ∈ (List.range 4096).map maskWord ↔ ∃ k < 4096, c.toNat = 16 * k + 5 := by
    simp only [List.mem_map, List.mem_range, ← BitVec.toNat_inj]
    exact exists_congr fun k => and_congr_right fun hk => by rw [toNat_maskWord hk, eq_comm]
  rw [legalWords, List.mem_append, formatN, formatM]

theorem nodup_legalWords : legalWords.Nodup := by
  refine List.nodup_append'.mpr ⟨by decide, ?masks, ?apart⟩
  case masks =>
    refine List.Nodup.map_on (fun a ha b hb hab => ?_) List.nodup_range
    have := congrArg BitVec.toNat hab
    rw [toNat_maskWord (List.mem_range.mp ha), toNat_maskWord (List.mem_range.mp hb)] at this
    omega
  case apart =>
    simp only [List.disjoint_left, List.mem_map, List.mem_range, not_exists, not_and]
    rintro c hc k hk rfl
    simp only [List.mem_cons, List.not_mem_nil, or_false, ← BitVec.toNat_inj, BitVec.ofNat_eq_ofNat,
      BitVec.reduceToNat, toNat_maskWord hk] at hc
    omega

theorem length_legalWords : legalWords.length = 4100 := by
  rw [legalWords, List.length_append, List.length_map, List.length_range]
  rfl

theorem mem_legalWords_iff_decode {c : Word} : c ∈ legalWords ↔ ∃ i, decode c = .legal i := by
  have shape : (∃ i, decode c = .legal i) ↔
      (1 ≤ c.toNat % 16 ∧ c.toNat % 16 ≤ 4 ∧ c.toNat / 16 = 0) ∨ (c.toNat % 16 = 5 ∧ c.toNat / 65536 = 0) := by
    simp only [decode_eq_legal_iff, exists_or, exists_and_left, exists_eq, and_true]
    omega
  rw [shape, mem_legalWords]
  constructor
  · rintro (h | ⟨k, hk, h⟩) <;> omega
  · rintro (h | h)
    · exact .inl (by omega)
    · exact .inr ⟨c.toNat / 16, by omega, by omega⟩

/-- Settles O2: each row is a case of `decode_eq_legal_iff`, and the legal words are the listed ones. -/
theorem decodeReadsEveryWordByItsFields : Obligations.DecodeReadsEveryWordByItsFields := by
  refine ⟨fun c => ⟨?swap32, ?swap16, ?btd, ?crc32, fun nb bs u => ?mask, ?illegal⟩,
    legalWords, nodup_legalWords, length_legalWords, fun c => mem_legalWords_iff_decode⟩
  case swap32 => simp [decode_eq_legal_iff, maskOfFields]
  case swap16 => simp [decode_eq_legal_iff, maskOfFields]
  case btd => simp [decode_eq_legal_iff, maskOfFields]
  case crc32 => simp [decode_eq_legal_iff, maskOfFields]
  case mask => simp [decode_eq_legal_iff, maskOfFields]
  case illegal => rw [decode_illegal_iff]; omega

/-! ### The assembler (rules R60, R62) -/

/-- MASK's operands are rejected unless they fit their fields. -/
theorem wellFormed_of_parseMask {operands : List (List Char)} {i : Instr} (h : parseMask operands = some i) :
    i.wellFormed = true := by
  unfold parseMask at h
  split at h
  · split at h
    · split at h
      next fits => cases h; exact fits
      next => cases h
    · cases h
  · cases h

theorem wellFormed_of_parseCommand {line : List Char} {i : Instr} (h : parseCommand line = some i) :
    i.wellFormed = true := by
  unfold parseCommand at h
  split at h
  · cases h; rfl
  · cases h; rfl
  · cases h; rfl
  · cases h; rfl
  · exact wellFormed_of_parseMask h
  · cases h

/-- Settles O4: the assembler encodes a well-formed command, and `decode_encode` reads it back. -/
theorem assemblerSpellsNoIllegalWord : Obligations.AssemblerSpellsNoIllegalWord := by
  intro line w h
  obtain ⟨i, hi, rfl⟩ := Option.map_eq_some_iff.mp h
  have fits := wellFormed_of_parseCommand hi
  exact ⟨i, hi, fits, decode_encode fits⟩

/-- Settles O3: the listed lines and words, by evaluation. -/
theorem workedEncodings : Obligations.WorkedEncodings := by
  unfold Obligations.WorkedEncodings
  decide

end Sys2Proof.Proofs.Encoding

/-! PROOFS. The invariant of a run: it holds after reset, and every step keeps it (10_state.md rules R18, R19, R25,
20_memory.md rule R34, 41_double_reconstructor.md rule R74). -/

namespace Sys2Proof.Proofs.Invariant

open Sys2Proof Sys2Proof.Machine Sys2Proof.Safety Sys2Proof.Proofs.Registers Sys2Proof.Proofs.Swapper

/-! ### STATUS (rules R18, R26, R91) -/

theorem statusWf_zero : statusWf 0 := by decide

theorem statusWf_accept {st : Word} (h : statusWf st) : statusWf (setDrop false (setErr 0 (setBusy true st))) := by
  obtain ⟨reserved, -, -⟩ := h
  simp [statusWf, reserved]

theorem statusWf_drop {st : Word} (h : statusWf st) : statusWf (setDrop true st) := by
  simpa [statusWf] using h

/-- A completion clears BUSY and leaves one of the three codes. -/
theorem statusWf_complete {s : State} (h : statusWf s.status) (o : Except ErrCode DWord) :
    statusWf (complete o s).status := by
  obtain ⟨reserved, -, -⟩ := h
  have codes : outcomeErr o = 0 ∨ outcomeErr o = 1 ∨ outcomeErr o = 2 := by
    rcases o with (_ | _) | _ <;> simp [outcomeErr, errCode]
  refine ⟨by rw [complete_reserved, reserved], by rwa [complete_err], fun hb => ?_⟩
  rw [complete_busy] at hb
  cases hb

/-! ### RES (rules R19, R74) -/

theorem resWf_zero : resWf 0 := .inl (by decide)

theorem resWf_zext64 (w : Word) : resWf (zext64 w) := .inl (resHi_zext64 w)

/-- BTD answers +0.0, an infinity, or the normal pattern it was given. -/
theorem resWf_bytesToDouble (d : DWord) : resWf (bytesToDouble d) := by
  unfold bytesToDouble
  split_ifs with hzero hones hsign
  · exact resWf_zero
  · exact .inr (.inr (.inl rfl))
  · exact .inr (.inl rfl)
  · exact .inr (.inr (.inr ⟨hzero, hones⟩))

theorem resWf_outcomeOf {i : Instr} {f : InFlight} {s : State} {r : DWord} (h : outcomeOf i f s = .ok r) :
    resWf r := by
  cases i with
  | swap32 => cases h; exact resWf_zext64 _
  | swap16 => cases h; exact resWf_zext64 _
  | btd =>
    simp only [outcomeOf, btdOutcome] at h
    split at h
    · cases h; exact resWf_bytesToDouble _
    · cases h
  | crc32 =>
    simp only [outcomeOf, crcOutcome] at h
    split at h
    · cases h
    · cases h; exact resWf_zext64 _
  | mask nb bs u => cases h; exact resWf_zext64 _

theorem resWf_wordOutcome {c : Word} {f : InFlight} {s : State} {r : DWord} (h : wordOutcome c f s = .ok r) :
    resWf r := by
  unfold wordOutcome at h
  split at h
  · exact resWf_outcomeOf h
  · cases h

/-! ### BUF (rule R34) -/

theorem bufWf_write {c : Config} {m : Memory} (h : bufWf c m) {offset : Nat} (hoff : offset < c.bufSize) (b : Byte) :
    bufWf c (m.write offset b) := by
  obtain ⟨hwf, hbelow⟩ := h
  refine ⟨Memory.write_wf hwf offset b, fun x hx => ?_⟩
  rcases Memory.mem_write hx with hx | ⟨rfl, -⟩
  · exact hbelow x hx
  · exact hoff

/-! ### The invariant, event by event -/

/-- The invariant reads the parameters, BUF, STATUS, INFLIGHT and RES alone. -/
theorem inv_congr {s t : State} (h : Inv s) (hc : t.config = s.config) (hb : t.buf = s.buf)
    (hst : t.status = s.status) (hi : t.inflight = s.inflight) (hr : t.res = s.res) : Inv t where
  config := hc ▸ h.config
  buf := by rw [hc, hb]; exact h.buf
  busy := by rw [State.busy, hst, hi]; exact h.busy
  status := hst ▸ h.status
  res := hr ▸ h.res

theorem inv_resetBlock {s : State} (h : Inv s) : Inv (resetBlock s) where
  config := h.config
  buf := h.buf
  busy := by simp [State.busy, statusBusy]
  status := statusWf_zero
  res := resWf_zero

theorem inv_accept {s : State} (h : Inv s) (w : Word) : Inv (accept w s) where
  config := h.config
  buf := h.buf
  busy := by simp [State.busy]
  status := statusWf_accept h.status
  res := h.res

theorem inv_dropCmd {s : State} (h : Inv s) : Inv (dropCmd s) where
  config := h.config
  buf := h.buf
  busy := by simpa [State.busy] using h.busy
  status := statusWf_drop h.status
  res := h.res

theorem inv_complete {s : State} (h : Inv s) {o : Except ErrCode DWord} (hr : ∀ r, o = .ok r → resWf r) :
    Inv (complete o s) where
  config := by rw [complete_eq]; exact h.config
  buf := by rw [complete_eq]; exact h.buf
  busy := by rw [State.busy, complete_busy, complete_eq]; rfl
  status := statusWf_complete h.status o
  res := by
    cases o with
    | ok r => exact hr r rfl
    | error e => exact h.res

theorem inv_wordDraw {s : State} (h : Inv s) (c : Word) : Inv (wordDraw c s) := by
  rw [wordDraw_eq]
  exact inv_congr h rfl rfl rfl rfl rfl

theorem inv_storeBuf {s : State} (h : Inv s) {offset : Nat} (hoff : offset < s.config.bufSize) (b : Byte) :
    Inv { s with buf := s.buf.write offset b } where
  config := h.config
  buf := bufWf_write h.buf hoff b
  busy := h.busy
  status := h.status
  res := h.res

theorem inv_regWrite {s : State} (h : Inv s) (off : Nat) (v : Word) : Inv (regWrite off v s) := by
  rcases regWrite_cases off v s with ⟨-, -, e⟩ | ⟨-, -, e⟩ | ⟨-, e⟩ | ⟨-, e⟩ | ⟨-, -, -, e⟩ <;> rw [e]
  · exact inv_dropCmd h
  · exact inv_accept h v
  · exact inv_congr h rfl rfl rfl rfl rfl
  · exact inv_congr h rfl rfl rfl rfl rfl
  · exact h

theorem inv_hostAct {s : State} (h : Inv s) (act : HostAction) : Inv (hostAct act s) := by
  rcases hostAct_cases act s with
    e | ⟨_, e⟩ | ⟨_, _, -, _, e⟩ | ⟨_, _, v, -, -, -, e⟩ | ⟨_, b, -, -, hoff, e⟩ | ⟨-, e⟩ <;> rw [e]
  · exact h
  · exact inv_congr h rfl rfl rfl rfl rfl
  · exact inv_congr h rfl rfl rfl rfl rfl
  · exact inv_regWrite h _ v
  · exact inv_storeBuf h hoff b
  · exact inv_resetBlock h

theorem inv_hostTurn {s : State} (h : Inv s) : Inv (hostTurn s) := by
  rcases hostTurn_cases s with ⟨e, -⟩ | ⟨act, rest, -, -, e⟩ <;> rw [e]
  · exact h
  · exact inv_hostAct (inv_congr h rfl rfl rfl rfl rfl : Inv (advanceHost rest s)) act

/-- Settles O53: each of the four kinds of step keeps the invariant. -/
theorem stepKeepsTheMachineWellFormed : Obligations.StepKeepsTheMachineWellFormed := by
  intro s t h hst
  have hpop : Inv (popTurn s) := inv_congr h rfl rfl rfl rfl rfl
  obtain ⟨-, ⟨-, rfl⟩ | ⟨-, rfl⟩ | ⟨-, -, rfl⟩ | ⟨-, f, -, rfl⟩⟩ := step_cases hst
  · exact inv_resetBlock hpop
  · exact inv_hostTurn hpop
  · exact hpop
  · exact inv_complete (inv_wordDraw hpop f.cmd) fun _ => resWf_wordOutcome

theorem inv_resetWith {c : Config} {m : Memory} (hc : c.wf) (hm : bufWf c m) : Inv (State.resetWith c m) where
  config := hc
  buf := hm
  busy := by simp [State.busy, statusBusy]
  status := statusWf_zero
  res := resWf_zero

/-- Settles O54: `State.reset` is the reset of a platform in range with nothing listed in BUF. -/
theorem resetIsWellFormed : Obligations.ResetIsWellFormed :=
  ⟨fun _ _ => inv_resetWith, inv_resetWith (by decide) ⟨Memory.wf_nil, by simp⟩, Config.initial, rfl⟩

end Sys2Proof.Proofs.Invariant

/-! PROOFS. The host's turn, action by action: register reads and writes in and out of the window, stores into BUF, and
WAIT (10_state.md rules R16 to R23, 20_memory.md rules R34, R42, R45). -/

namespace Sys2Proof.Proofs.HostActions

open Sys2Proof Sys2Proof.Machine Sys2Proof.Safety

/-! ### Reads of the window's slots (rules R16, R19, R20, R22) -/

theorem toNat_resLo (r : DWord) : (resLo r).toNat = r.toNat % 2 ^ 32 := by
  simp [resLo]

theorem toNat_resHi (r : DWord) : (resHi r).toNat = r.toNat / 2 ^ 32 := by
  have hr := r.isLt
  simp only [resHi, BitVec.extractLsb'_toNat, Nat.shiftRight_eq_div_pow]
  omega

/-- Settles O7: at each offset the slot's value is what `regRead` answers. -/
theorem registerReadsFollowTheMap : Obligations.RegisterReadsFollowTheMap := by
  intro s rest off v hh hv
  have slot : off < 32 ∧ off % 4 = 0 := by omega
  have value : regRead s off = v := by
    obtain ⟨rfl, rfl⟩ | ⟨rfl, rfl⟩ | ⟨rfl, rfl⟩ | ⟨rfl, rfl⟩ | ⟨rfl, hv⟩ | ⟨rfl, hv⟩ | ⟨rfl, rfl⟩ | ⟨rfl, rfl⟩ := hv
    · rfl
    · rfl
    · rfl
    · rfl
    · exact BitVec.eq_of_toNat_eq ((toNat_resLo s.res).trans hv.symm)
    · exact BitVec.eq_of_toNat_eq ((toNat_resHi s.res).trans hv.symm)
    · rfl
    · rfl
  rw [hostTurn_read hh slot.1 slot.2, value]
  rfl

/-! ### Accesses outside the window, and accesses without a meaning (rules R22, R42, R102) -/

section Access

variable {s : State} {rest : List HostAction} {addr bytes : Nat} {v : Word}

theorem hostTurn_readAt (h : s.host = .read addr bytes :: rest) :
    hostTurn s = hostRead addr bytes (advanceHost rest s) :=
  hostTurn_act h nofun

theorem hostTurn_writeAt (h : s.host = .write addr bytes v :: rest) :
    hostTurn s = hostWrite addr bytes v (advanceHost rest s) :=
  hostTurn_act h nofun

theorem touchesWindow_eq_false_iff {c : Config} :
    touchesWindow c addr bytes = false ↔ addr + bytes ≤ c.regBase ∨ c.regBase + 32 ≤ addr := by
  rw [← Bool.not_eq_true, touchesWindow_iff]
  omega

theorem legalAccess_eq_false_iff {c : Config} :
    legalAccess c addr bytes = false ↔ ¬ (bytes = 4 ∧ c.regBase ≤ addr ∧ (addr - c.regBase) % 4 = 0) := by
  rw [← Bool.not_eq_true, legalAccess_iff]

/-- An access that touches no byte of the window is no access to this block. -/
theorem hostTurn_outside (hout : touchesWindow s.config addr bytes = false)
    (h : s.host = .write addr bytes v :: rest ∨ s.host = .read addr bytes :: rest) :
    hostTurn s = advanceHost rest s := by
  rcases h with h | h
  · rw [hostTurn_writeAt h, hostWrite, advanceHost_config, hout]; rfl
  · rw [hostTurn_readAt h, hostRead, advanceHost_config, hout]; rfl

/-- An access to this block that is not a 32-bit one at a multiple of 4 is recorded as a fault. -/
theorem hostTurn_without_meaning (htouch : touchesWindow s.config addr bytes = true)
    (hillegal : legalAccess s.config addr bytes = false)
    (h : s.host = .write addr bytes v :: rest ∨ s.host = .read addr bytes :: rest) :
    hostTurn s = recordFault .hostRegisterAccess (advanceHost rest s) := by
  rcases h with h | h
  · rw [hostTurn_writeAt h, hostWrite, advanceHost_config, htouch, hillegal]; rfl
  · rw [hostTurn_readAt h, hostRead, advanceHost_config, htouch, hillegal]; rfl

end Access

/-- Settles O8: a read is no access, a recorded fault, or one value kept. -/
theorem hostReadsHaveNoSideEffect : Obligations.HostReadsHaveNoSideEffect := by
  intro s rest addr bytes hh
  refine ⟨_, rfl, ?_⟩
  rw [hostTurn_readAt hh]
  rcases hostRead_cases addr bytes (advanceHost rest s) with ⟨-, e⟩ | ⟨htouch, hillegal, e⟩ | ⟨-, -, e⟩ <;> rw [e]
  · exact ⟨rfl, ⟨[], by simp, by simp⟩, fun _ => rfl⟩
  · refine ⟨rfl, ⟨[], by simp, by simp⟩, fun meaningful => ?_⟩
    have inside := touchesWindow_iff.mp htouch
    have misformed := legalAccess_eq_false_iff.mp hillegal
    rw [advanceHost_config] at inside misformed
    omega
  · exact ⟨rfl, ⟨[_], by simp, rfl⟩, fun _ => rfl⟩

/-- Settles O12: the ignored slots fall through `regWrite`, the reserved ones through `regRead`, and an outside access
is none. -/
theorem readOnlyReservedAndOutsideAccesses : Obligations.ReadOnlyReservedAndOutsideAccesses := by
  refine ⟨fun s v off rest hoff hh => ?ignored, fun s off rest hoff hh => ?reserved,
    fun s addr bytes v rest hout hh => hostTurn_outside (touchesWindow_eq_false_iff.mpr hout) hh⟩
  case ignored =>
    have notWritable : off ≠ offCmd ∧ off ≠ offOpa ∧ off ≠ offOpb := by simp only [offCmd, offOpa, offOpb]; omega
    obtain ⟨hcmd, hopa, hopb⟩ := notWritable
    rw [onlyHostMoved, hostTurn_write hh (by omega) (by omega), regWrite, if_neg hcmd, if_neg hopa, if_neg hopb]
    rfl
  case reserved =>
    have zero : regRead s off = 0 := by rcases hoff with rfl | rfl <;> rfl
    rw [hostTurn_read hh (by omega) (by omega), zero]
    rfl

/-! ### Stores into BUF (rules R34, R45) -/

section Store

variable {s : State} {rest : List HostAction} {offset : Nat} {b : Byte}

theorem hostTurn_storeBuf (h : s.host = .storeBuf offset b :: rest) :
    hostTurn s = hostStoreBuf offset b (advanceHost rest s) :=
  hostTurn_act h nofun

theorem hostStoreBuf_of_busy (hb : s.busy = true) :
    hostStoreBuf offset b s = recordFault .hostBufWriteWhileBusy s :=
  if_pos hb

theorem hostStoreBuf_of_inBuf (hb : s.busy = false) (hoff : offset < s.config.bufSize) :
    hostStoreBuf offset b s = { s with buf := s.buf.write offset b } := by
  rw [hostStoreBuf, hb, if_neg nofun, if_pos hoff]

theorem hostStoreBuf_past_end (hb : s.busy = false) (hoff : s.config.bufSize ≤ offset) :
    hostStoreBuf offset b s = recordFault .hostBufWritePastEnd s := by
  rw [hostStoreBuf, hb, if_neg nofun, if_neg (Nat.not_lt.mpr hoff)]

end Store

/-- Settles O14: past BUF_SIZE the store is `recordFault`. -/
theorem hostStorePastTheEndIsRecorded : Obligations.HostStorePastTheEndIsRecorded := by
  intro s off b rest hb hoff hh
  rw [hostTurn_storeBuf hh, hostStoreBuf_past_end (s := advanceHost rest s) hb hoff]
  rfl

/-- Settles O15: the store is `Memory.write`, whose laws are read after write and the canonical form. -/
theorem hostStoreChangesOneByte : Obligations.HostStoreChangesOneByte := by
  intro s off b rest hwf hb hoff hh
  rw [hostTurn_storeBuf hh, hostStoreBuf_of_inBuf (s := advanceHost rest s) hb hoff]
  exact ⟨rfl, Memory.write_wf hwf off b, Memory.read_write hwf off b⟩

/-! ### The record of a fault (rule R102) -/

/-- A recorded fault is what every step answers. -/
theorem step_of_hostFault {s : State} {f : Fault} (hf : s.hostFault = some f) : step s = .fault f := by
  rw [step, takeTurn, hf]

/-- Settles O13: both actions reach `recordFault`, and the record stops every step and denies `runEnded`. -/
theorem meaninglessHostActionsAreRecorded : Obligations.MeaninglessHostActionsAreRecorded := by
  refine ⟨fun s addr bytes v rest hlow hhigh hform hh => ?access, fun s off b rest hb hh => ?store,
    fun s f hf => ⟨step_of_hostFault hf, fun ⟨_, _, hnone⟩ => ?final⟩⟩
  case access =>
    exact hostTurn_without_meaning (touchesWindow_iff.mpr ⟨hlow, hhigh⟩) (legalAccess_eq_false_iff.mpr hform) hh
  case store =>
    rw [hostTurn_storeBuf hh, hostStoreBuf_of_busy (s := advanceHost rest s) hb]
    rfl
  case final =>
    rw [hf] at hnone
    cases hnone

/-! ### WAIT (rule R11) -/

/-- Settles O16: the host's turn on a WAIT, by BUSY. -/
theorem waitEndsWhenBusyIsZero : Obligations.WaitEndsWhenBusyIsZero := by
  intro s rest hh
  refine ⟨fun hb => ?_, fun hb => ?_⟩
  · rw [hostTurn, hh]; simp [hb]
  · rw [onlyHostMoved, hostTurn, hh]; simp [hb, hostAct, advanceHost]

end Sys2Proof.Proofs.HostActions

/-! PROOFS. The laws of the byte-order swapper, and that a swap reads its latched operand alone
(40_byte_order_swapper.md rules R66, R67). -/

namespace Sys2Proof.Proofs.SwapLaws

open Sys2Proof Sys2Proof.Machine Sys2Proof.Proofs.Swapper Sys2Proof.Proofs.Exceptions

/-! ### The laws (rule R66) -/

/-- A word is its four bytes, the top one first. -/
theorem append_bytes (a : Word) :
    a.extractLsb' 24 8 ++ a.extractLsb' 16 8 ++ a.extractLsb' 8 8 ++ a.extractLsb' 0 8 = a := by
  rw [BitVec.extractLsb'_append_extractLsb'_eq_extractLsb' (by decide),
    BitVec.extractLsb'_append_extractLsb'_eq_extractLsb' (by decide),
    BitVec.extractLsb'_append_extractLsb'_eq_extractLsb' (by decide)]
  exact BitVec.extractLsb'_eq_self

theorem swap32_swap32 (a : Word) : swap32 (swap32 a) = a := by
  obtain ⟨b3, b2, b1, b0⟩ :=
    bytes_of_append (a.extractLsb' 0 8) (a.extractLsb' 8 8) (a.extractLsb' 16 8) (a.extractLsb' 24 8)
  calc swap32 (swap32 a)
      = a.extractLsb' 24 8 ++ a.extractLsb' 16 8 ++ a.extractLsb' 8 8 ++ a.extractLsb' 0 8 := by
        rw [swap32, swap32, b3, b2, b1, b0]
    _ = a := append_bytes a

theorem swap32_xor (x y : Word) : swap32 (x ^^^ y) = swap32 x ^^^ swap32 y := by
  simp only [swap32, BitVec.extractLsb'_xor, ← BitVec.xor_append]

theorem swap32_and (x y : Word) : swap32 (x &&& y) = swap32 x &&& swap32 y := by
  simp only [swap32, BitVec.extractLsb'_and, ← BitVec.and_append]

theorem swap32_or (x y : Word) : swap32 (x ||| y) = swap32 x ||| swap32 y := by
  simp only [swap32, BitVec.extractLsb'_or, ← BitVec.or_append]

/-- Swapping the bytes of the low half a second time puts them back. -/
theorem swappedHalf_swap16 (a : Word) : swappedHalf (swap16 a) = a.extractLsb' 0 16 := by
  rw [swappedHalf, byte0_swap16, byte1_swap16, BitVec.extractLsb'_append_extractLsb'_eq_extractLsb' (by decide)]

/-- The swapped half reads the low half alone. -/
theorem swappedHalf_congr {x y : Word} (h : x.extractLsb' 0 16 = y.extractLsb' 0 16) :
    swappedHalf x = swappedHalf y := by
  have low : ∀ a : Word, swappedHalf a =
      (a.extractLsb' 0 16).extractLsb' 0 8 ++ (a.extractLsb' 0 16).extractLsb' 8 8 := fun a => by
    rw [swappedHalf, BitVec.extractLsb'_extractLsb'_of_le (by decide),
      BitVec.extractLsb'_extractLsb'_of_le (by decide)]
  rw [low, low, h]

theorem highHalf_swap32 (a : Word) : (swap32 a).extractLsb' 16 16 = swappedHalf a := by
  rw [swap32, BitVec.extractLsb'_append_eq_of_le (by decide), BitVec.extractLsb'_append_eq_of_le (by decide)]
  exact BitVec.extractLsb'_eq_self

/-- Settles O19: the five laws, one lemma each. -/
theorem swapperLaws : Obligations.SwapperLaws := by
  refine ⟨swap32_swap32, fun x y => ⟨swap32_xor x y, swap32_and x y, swap32_or x y⟩, fun x => ⟨?twice, ?sext⟩,
    fun x => ?halves, fun x y h => ?low, highHalf_swap16⟩
  case twice => rw [swap16_eq_signExtend, swappedHalf_swap16]
  case sext => rw [lowHalf_swap16, swap16_eq_signExtend]
  case halves => rw [lowHalf_swap16, highHalf_swap32]
  case low => rw [swap16_eq_signExtend, swap16_eq_signExtend, swappedHalf_congr h]

/-! ### The completion of a swap (rule R67) -/

/-- The result of a swap command. -/
def swapResult (i : Instr) (a : Word) : Word := if i = .swap32 then swap32 a else swap16 a

/-- The unit's turn on an outcome that is a result leaves ERR = 0 and that result in RES. -/
theorem unitTurn_of_ok {s : State} {f : InFlight} {r : DWord} (hf : s.inflight = some f)
    (ho : wordOutcome f.cmd f s = .ok r) :
    ∃ t, unitTurn s = .next t ∧ statusErr t.status = 0x0 ∧ t.res = r := by
  refine ⟨_, unitTurn_inFlight hf, ?_, ?_⟩
  · rw [complete_err, ho, outcomeErr]
  · rw [ho, complete_ok, completeOk_res]

theorem wordOutcome_of_swap {c : Word} {i : Instr} (hi : i = .swap32 ∨ i = .swap16) (hd : decode c = .legal i)
    (f : InFlight) (s : State) : wordOutcome c f s = .ok (zext64 (swapResult i f.a)) := by
  rw [wordOutcome_of_legal hd]
  rcases hi with rfl | rfl <;> rfl

/-- Settles O20: the outcome of a swap names its latched OPA and nothing else. -/
theorem swapsDependOnTheLatchedOpaAlone : Obligations.SwapsDependOnTheLatchedOpaAlone := by
  intro s s' f f' i hi hf hf' hd hd' ha
  obtain ⟨t, hturn, herr, hres⟩ := unitTurn_of_ok hf (wordOutcome_of_swap hi hd f s)
  obtain ⟨t', hturn', herr', hres'⟩ := unitTurn_of_ok hf' (wordOutcome_of_swap hi hd' f' s')
  exact ⟨t, t', hturn, hturn', herr, herr', by rw [hres, hres', ha]⟩

end Sys2Proof.Proofs.SwapLaws

/-! PROOFS. BUF read big-endian, the fields of a double, and BTD on the normal exponents and on exponent 0x7FF
(20_memory.md rule R39, 41_double_reconstructor.md rules R69, R71 to R74). -/

namespace Sys2Proof.Proofs.DoubleValues

open Sys2Proof Sys2Proof.Machine Sys2Proof.Proofs.Swapper Sys2Proof.Proofs.DoubleReconstructor

/-! ### Big-endian reads (rule R39) -/

/-- The last byte read stands lowest; the ones before it are the shorter read, one byte up. -/
theorem extractLsb'_memRead (m : Memory) (addr : Nat) {n k : Nat} (hk : k < n) :
    (memRead m addr n).extractLsb' (8 * (n - 1 - k)) 8 = m.read (addr + k) := by
  induction n with
  | zero => omega
  | succ n ih =>
    show (memRead m addr n ++ m.read (addr + n)).extractLsb' (8 * (n - k)) 8 = _
    rcases Nat.lt_succ_iff_lt_or_eq.mp hk with hlt | rfl
    · have oneUp : 8 * (n - k) - 8 = 8 * (n - 1 - k) := by omega
      rw [BitVec.extractLsb'_append_eq_of_le (by omega), oneUp, ih hlt]
    · rw [Nat.sub_self]
      exact BitVec.extractLsb'_append_eq_right

/-- Settles O21. -/
theorem memReadIsBigEndian : Obligations.MemReadIsBigEndian :=
  fun m addr _ _ hk => extractLsb'_memRead m addr hk

/-! ### The fields of the eight bytes (rule R69) -/

/-- Two fields that meet are one field. -/
theorem extractLsb'_split {w : Nat} (d : BitVec w) (start lo hi : Nat) :
    d.extractLsb' start (hi + lo) = d.extractLsb' (start + lo) hi ++ d.extractLsb' start lo :=
  (BitVec.extractLsb'_append_extractLsb'_eq_extractLsb' rfl).symm

theorem ofBool_getLsbD {w : Nat} (d : BitVec w) (i : Nat) : BitVec.ofBool (d.getLsbD i) = d.extractLsb' i 1 := by
  apply BitVec.eq_of_getLsbD_eq; intro j hj
  obtain rfl : j = 0 := by omega
  simp

theorem extractLsb'_extractLsb' {w n : Nat} (d : BitVec w) (base : Nat) {start len : Nat} (h : start + len ≤ n) :
    (d.extractLsb' base n).extractLsb' start len = d.extractLsb' (base + start) len := by
  apply BitVec.eq_of_getLsbD_eq; intro i hi
  have inside : start + i < n := by omega
  simp [hi, inside, Nat.add_assoc]

/-- A field inside a byte of the eight, as a field of the byte in BUF. -/
theorem extractLsb'_memRead_eight (m : Memory) (a k start len : Nat) (hk : k < 8) (hfit : start + len ≤ 8) :
    (memRead m a 8).extractLsb' (8 * (7 - k) + start) len = (m.read (a + k)).extractLsb' start len := by
  rw [← extractLsb'_memRead m a hk, extractLsb'_extractLsb' _ _ hfit]

/-- Shifting the upper part up and OR-ing in the lower part is concatenation. -/
theorem shiftLeft_or_eq_append (x : BitVec 7) (y : BitVec 4) : x.setWidth 11 <<< 4 ||| y.setWidth 11 = x ++ y := by
  rw [BitVec.append_def, BitVec.shiftLeftZeroExtend_eq, BitVec.setWidth'_eq]

section Fields

variable (m : Memory) (a : Nat)

theorem doubleSign_memRead : doubleSign (memRead m a 8) = (m.read a).getLsbD 7 := by
  have bit := extractLsb'_memRead_eight m a 0 7 1 (by decide) (by decide)
  rw [doubleSign]
  simpa using congrArg (BitVec.getLsbD · 0) bit

theorem doubleExp_memRead :
    doubleExp (memRead m a 8) = (m.read a).extractLsb' 0 7 ++ (m.read (a + 1)).extractLsb' 4 4 := by
  rw [doubleExp, extractLsb'_split _ 52 4 7]
  exact congrArg₂ _ (extractLsb'_memRead_eight m a 0 0 7 (by decide) (by decide))
    (extractLsb'_memRead_eight m a 1 4 4 (by decide) (by decide))

theorem doubleMant_memRead :
    doubleMant (memRead m a 8) =
      (m.read (a + 1)).extractLsb' 0 4 ++ m.read (a + 2) ++ m.read (a + 3) ++ m.read (a + 4) ++ m.read (a + 5)
        ++ m.read (a + 6) ++ m.read (a + 7) := by
  have byte : ∀ k < 8, (memRead m a 8).extractLsb' (8 * (7 - k)) 8 = m.read (a + k) :=
    fun k hk => extractLsb'_memRead m a hk
  rw [doubleMant, extractLsb'_split _ 0 8 44, extractLsb'_split _ 8 8 36, extractLsb'_split _ 16 8 28,
    extractLsb'_split _ 24 8 20, extractLsb'_split _ 32 8 12, extractLsb'_split _ 40 8 4,
    ← byte 2 (by decide), ← byte 3 (by decide), ← byte 4 (by decide), ← byte 5 (by decide), ← byte 6 (by decide),
    ← byte 7 (by decide), ← extractLsb'_memRead_eight m a 1 0 4 (by decide) (by decide)]

end Fields

theorem double_eq_append_fields (d : DWord) : d = BitVec.ofBool (doubleSign d) ++ doubleExp d ++ doubleMant d := by
  rw [doubleSign, ofBool_getLsbD, doubleExp, doubleMant, ← extractLsb'_split d 52 11 1, ← extractLsb'_split d 0 52 12]
  exact BitVec.extractLsb'_eq_self.symm

/-- Settles O22: each field is the fields of the bytes it crosses. -/
theorem doubleFieldsComeFromTheBytes : Obligations.DoubleFieldsComeFromTheBytes := fun m a =>
  ⟨doubleSign_memRead m a, (doubleExp_memRead m a).trans (shiftLeft_or_eq_append _ _).symm, doubleExp_memRead m a,
    doubleMant_memRead m a, double_eq_append_fields _⟩

/-! ### Exponent 0x7FF (rule R71) -/

theorem bytesToDouble_of_exp_ones {d : DWord} (he : doubleExp d = 0x7FF) :
    bytesToDouble d = if doubleSign d then minusInf else plusInf := by
  rw [bytesToDouble, he, if_neg (by decide), if_pos rfl]

/-- An infinity keeps the sign and the exponent and clears the mantissa. -/
theorem infinity_eq_append (sign : Bool) :
    (if sign then minusInf else plusInf) = BitVec.ofBool sign ++ 0x7FF#11 ++ 0#52 := by
  cases sign <;> decide

/-- Settles O24: RES is the infinity of the sign. -/
theorem btdCollapsesExponentAllOnes : Obligations.BtdCollapsesExponentAllOnes := by
  intro s f hf hin he
  have hexp : doubleExp (latchedPattern s f) = 0x7FF := BitVec.eq_of_toNat_eq he
  obtain ⟨t, hexec, hdone, hdraws, hres⟩ := exec_btd_completes hf hin
  have value := hres.trans (bytesToDouble_of_exp_ones hexp)
  refine ⟨t, hexec, hdone, hdraws, fun hplus => ?_, fun hminus => ?_, ?_⟩
  · have hsign : doubleSign (latchedPattern s f) = false := hplus
    rw [value, hsign]; rfl
  · have hsign : doubleSign (latchedPattern s f) = true := hminus
    rw [value, hsign]; rfl
  · rw [value, infinity_eq_append, doubleSign, ofBool_getLsbD]; rfl

/-! ### The normal exponents (rules R72, R73) -/

/-- The normal exponents are 1 to 0x7FE. -/
theorem normal_iff {d : DWord} :
    doubleExp d ≠ 0 ∧ doubleExp d ≠ 0x7FF ↔ 1 ≤ (doubleExp d).toNat ∧ (doubleExp d).toNat ≤ 0x7FE := by
  have hlt := (doubleExp d).isLt
  rw [ne_eq, ne_eq, ← BitVec.toNat_inj, ← BitVec.toNat_inj]
  simp only [BitVec.ofNat_eq_ofNat, BitVec.reduceToNat]
  omega

theorem bytesToDouble_of_normal {d : DWord} (h : doubleExp d ≠ 0 ∧ doubleExp d ≠ 0x7FF) : bytesToDouble d = d := by
  rw [bytesToDouble, if_neg h.1, if_neg h.2]

/-- In bounds and on a normal pattern BTD completes with that pattern. -/
theorem exec_btd_of_normal {s : State} {f : InFlight} (hf : s.inflight = some f)
    (hin : f.a.toNat + 8 ≤ s.config.bufSize)
    (hn : doubleExp (latchedPattern s f) ≠ 0 ∧ doubleExp (latchedPattern s f) ≠ 0x7FF) :
    ∃ t, exec .btd s = .next t ∧ Safety.completedOk s t ∧ t.draws = s.draws ∧ t.res = latchedPattern s f := by
  obtain ⟨t, hexec, hdone, hdraws, hres⟩ := exec_btd_completes hf hin
  exact ⟨t, hexec, hdone, hdraws, hres.trans (bytesToDouble_of_normal hn)⟩

/-- Settles O25. -/
theorem btdIsTheIdentityOnNormalPatterns : Obligations.BtdIsTheIdentityOnNormalPatterns :=
  fun _ _ hf hin hlow hhigh => exec_btd_of_normal hf hin (normal_iff.mpr ⟨hlow, hhigh⟩)

theorem toNat_doubleMant_lt (d : DWord) : (doubleMant d).toNat < 2 ^ 52 := (doubleMant d).isLt

/-- The significand as an integer: the fraction's denominator moves into the exponent. -/
theorem binary64Value_eq (d : DWord) :
    binary64Value d = (if doubleSign d then -1 else 1) * ((2 : ℚ) ^ 52 + ((doubleMant d).toNat : ℚ))
      * (2 : ℚ) ^ (((doubleExp d).toNat : Int) - 1075) := by
  have scale : (2 : ℚ) ^ (((doubleExp d).toNat : Int) - 1023) =
      (2 : ℚ) ^ (((doubleExp d).toNat : Int) - 1075) * 2 ^ 52 := by
    rw [← zpow_natCast, ← zpow_add₀ two_ne_zero]
    congr 1
    omega
  rw [binary64Value, scale]
  field_simp

theorem abs_binary64Value (d : DWord) :
    |binary64Value d| = (2 : ℚ) ^ (((doubleExp d).toNat : Int) - 1023) * (1 + ((doubleMant d).toNat : ℚ) / 2 ^ 52) := by
  have sign : |(if doubleSign d then -1 else 1 : ℚ)| = 1 := by cases doubleSign d <;> simp
  rw [binary64Value, abs_mul, abs_mul, sign, one_mul, abs_of_pos (by positivity), abs_of_pos (by positivity)]

/-- The absolute value lies in the binade of the exponent. -/
theorem abs_binary64Value_mem (d : DWord) :
    (2 : ℚ) ^ (((doubleExp d).toNat : Int) - 1023) ≤ |binary64Value d| ∧
      |binary64Value d| < (2 : ℚ) ^ (((doubleExp d).toNat : Int) - 1022) := by
  have pow_pos : (0 : ℚ) < 2 ^ (((doubleExp d).toNat : Int) - 1023) := by positivity
  have double : (2 : ℚ) ^ (((doubleExp d).toNat : Int) - 1022) = 2 ^ (((doubleExp d).toNat : Int) - 1023) * 2 := by
    rw [← zpow_add_one₀ two_ne_zero]
    congr 1
    omega
  have fraction_nonneg : (0 : ℚ) ≤ ((doubleMant d).toNat : ℚ) / 2 ^ 52 := by positivity
  have fraction_lt : ((doubleMant d).toNat : ℚ) / 2 ^ 52 < 1 := by
    rw [div_lt_one (by positivity)]
    exact_mod_cast toNat_doubleMant_lt d
  rw [abs_binary64Value, double]
  exact ⟨le_mul_of_one_le_right pow_pos.le (by linarith), mul_lt_mul_of_pos_left (by linarith) pow_pos⟩

/-- Settles O26: RES is the latched pattern, and its value is read off its fields. -/
theorem btdNormalResultIsExact : Obligations.BtdNormalResultIsExact := by
  rintro s f _ _ _ hf hin rfl rfl rfl hlow hhigh
  have hn := normal_iff.mpr ⟨hlow, hhigh⟩
  have mant : (doubleMant (memRead s.buf f.a.toNat 8)).toNat < 2 ^ 52 := toNat_doubleMant_lt _
  obtain ⟨t, hexec, -, -, hres⟩ := exec_btd_of_normal hf hin hn
  refine ⟨t, hexec, ?_⟩
  rw [hres]
  exact ⟨hn.1, hn.2, Nat.add_lt_add_left mant (2 ^ 52), binary64Value_eq _, abs_binary64Value_mem _⟩

/-! ### The output set (rule R74) -/

/-- Settles O27: the three flushed or collapsed patterns are outputs of themselves, and so is every normal one. -/
theorem btdOutputSet : Obligations.BtdOutputSet := by
  refine fun r => ⟨?outputs, ?onto⟩
  case outputs =>
    rintro ⟨d, rfl⟩
    unfold bytesToDouble
    split_ifs with hzero hones hsign
    · exact .inl rfl
    · exact .inr (.inr (.inl rfl))
    · exact .inr (.inl rfl)
    · exact .inr (.inr (.inr (normal_iff.mp ⟨hzero, hones⟩)))
  case onto =>
    rintro (rfl | rfl | rfl | hn)
    · exact ⟨0, by decide⟩
    · exact ⟨plusInf, by decide⟩
    · exact ⟨minusInf, by decide⟩
    · exact ⟨r, bytesToDouble_of_normal (normal_iff.mpr hn)⟩

end Sys2Proof.Proofs.DoubleValues

/-! PROOFS. The CRC-32 engine: the listed table, short ranges, and the bit-serial shift register that the table-driven
fold refines (42_crc32_engine.md rules R75 to R81). -/

namespace Sys2Proof.Proofs.CrcRegister

open Sys2Proof Sys2Proof.Machine Sys2Proof.Safety Sys2Proof.Proofs.Swapper Sys2Proof.Proofs.CrcEngine

/-! ### One round is linear over XOR (rules R75, R76) -/

/-- A round shifts by one and XORs the polynomial under the bit shifted out. -/
theorem crcRound_eq_xor (v : Word) : crcRound v = (v >>> 1) ^^^ (if v.getLsbD 0 then crcPoly else 0) := by
  unfold crcRound
  split
  · exact BitVec.xor_comm _ _
  · exact BitVec.xor_zero.symm

theorem crcRound_xor (v w : Word) : crcRound (v ^^^ w) = crcRound v ^^^ crcRound w := by
  have feedback : (if (v.getLsbD 0 ^^ w.getLsbD 0) then crcPoly else 0) =
      (if v.getLsbD 0 then crcPoly else 0) ^^^ (if w.getLsbD 0 then crcPoly else 0) := by
    cases v.getLsbD 0 <;> cases w.getLsbD 0 <;> rfl
  rw [crcRound_eq_xor, crcRound_eq_xor, crcRound_eq_xor, BitVec.ushiftRight_xor_distrib, BitVec.getLsbD_xor, feedback]
  ac_rfl

theorem iterate_crcRound_xor (k : Nat) (v w : Word) :
    crcRound^[k] (v ^^^ w) = crcRound^[k] v ^^^ crcRound^[k] w := by
  induction k generalizing v w with
  | zero => rfl
  | succ k ih => rw [Function.iterate_succ_apply, crcRound_xor, ih]; rfl

theorem crcTable_xor (x y : Byte) : crcTable (x ^^^ y) = crcTable x ^^^ crcTable y := by
  rw [crcTable_eq_iterate, BitVec.setWidth_xor, iterate_crcRound_xor, ← crcTable_eq_iterate, ← crcTable_eq_iterate]

/-- The ROM, entry by entry: the kernel evaluates the eight rounds of each of the 256 bytes. -/
theorem crcRom_eq_generated : crcRom = (List.range 256).map fun n => crcTable (BitVec.ofNat 8 n) := by
  decide +kernel

/-- Settles O29: the ROM is the generated list, and the rounds are linear. -/
theorem crcTableIsTheListedRom : Obligations.CrcTableIsTheListedRom := by
  refine ⟨by rw [crcRom_eq_generated, List.length_map, List.length_range], fun n => ?_, by decide, by decide,
    by decide, by decide, crcTable_xor⟩
  rw [crcRom_eq_generated, List.getElem?_map, List.getElem?_range n.isLt]
  simp

/-! ### The bit-serial register (rule R80) -/

/-- The register after `bit` is fed in: XOR it into the low bit, then one round. -/
def feedBit (bit : Bool) (v : Word) : Word := crcRound (v ^^^ if bit then 1 else 0)

/-- The register after the low `k` bits of `w`, from bit 0 up. -/
def feedBits (w : Word) (k : Nat) (v : Word) : Word := (List.range k).foldl (fun v j => feedBit (w.getLsbD j) v) v

theorem feedBits_succ (w : Word) (k : Nat) (v : Word) :
    feedBits w (k + 1) v = feedBit (w.getLsbD k) (feedBits w k v) := by
  rw [feedBits, List.range_succ, List.foldl_append]; rfl

/-- The bit fed in only decides whether the polynomial is XORed: it is shifted out. -/
theorem feedBit_eq_ite (bit : Bool) (v : Word) :
    feedBit bit v = if (v.getLsbD 0 ^^ bit) then crcPoly ^^^ (v >>> 1) else v >>> 1 := by
  have shifted : (v ^^^ if bit then 1 else 0) >>> 1 = v >>> 1 := by cases bit <;> simp [BitVec.ushiftRight_xor_distrib]
  have low : (v ^^^ if bit then 1 else 0).getLsbD 0 = (v.getLsbD 0 ^^ bit) := by cases bit <;> simp
  rw [feedBit, crcRound, low, shifted]

/-- A round of the register XORed with a word is a round fed with the word's low bit; the rest of the word moves down. -/
theorem crcRound_xor_eq_feedBit (v w : Word) : crcRound (v ^^^ w) = feedBit (w.getLsbD 0) v ^^^ (w >>> 1) := by
  rw [feedBit, crcRound_xor, crcRound_xor, BitVec.xor_assoc]
  congr 1
  rw [crcRound_eq_xor w, BitVec.xor_comm]
  cases w.getLsbD 0 <;> rfl

/-- The rounds commute with feeding: `k` rounds on the register XORed with a word have fed in the word's low `k` bits
one by one, and the rest of the word has moved down. -/
theorem iterate_crcRound_eq_feedBits (k : Nat) (v w : Word) :
    crcRound^[k] (v ^^^ w) = feedBits w k v ^^^ (w >>> k) := by
  induction k with
  | zero => simp [feedBits]
  | succ k ih =>
    rw [Function.iterate_succ_apply', ih, crcRound_xor_eq_feedBit, feedBits_succ, ← BitVec.shiftRight_add]
    simp

theorem feedBits_congr {w w' : Word} {k : Nat} (h : ∀ j < k, w.getLsbD j = w'.getLsbD j) (v : Word) :
    feedBits w k v = feedBits w' k v :=
  List.foldl_ext _ _ _ fun v j hj => by rw [h j (List.mem_range.mp hj)]

theorem shiftRight_byte (x : Byte) : x.setWidth 32 >>> 8 = 0#32 := by
  apply BitVec.eq_of_getLsbD_eq; intro i hi
  simp

/-- Eight rounds of a word: the table looked up at its low byte, and its other bytes moved down. -/
theorem iterate_crcRound_eight (w : Word) :
    crcRound^[8] w = (w >>> 8) ^^^ crcTable (w.extractLsb' 0 8) := by
  have table : crcTable (w.extractLsb' 0 8) = feedBits w 8 0#32 := by
    have lowByte := iterate_crcRound_eq_feedBits 8 0#32 ((w.extractLsb' 0 8).setWidth 32)
    rw [BitVec.zero_xor, ← crcTable_eq_iterate, shiftRight_byte, BitVec.xor_zero] at lowByte
    exact lowByte.trans (feedBits_congr (fun j hj => by simp [hj, show j < 32 by omega]) 0#32)
  rw [table, BitVec.xor_comm, ← iterate_crcRound_eq_feedBits, BitVec.zero_xor]

/-- One byte into the accumulator is its eight bits into the register, from bit 0 up. -/
theorem crcUpdate_eq_feedBits (acc : Word) (x : Byte) :
    crcUpdate acc x = (List.range 8).foldl (fun v j => feedBit (x.getLsbD j) v) acc := by
  have bits : ∀ j < 8, (x.setWidth 32).getLsbD j = x.getLsbD j := fun j hj => by simp [show j < 32 by omega]
  calc crcUpdate acc x
      = crcRound^[8] (acc ^^^ x.setWidth 32) := by
        rw [iterate_crcRound_eight, BitVec.ushiftRight_xor_distrib, shiftRight_byte, BitVec.xor_zero, crcUpdate]
    _ = feedBits (x.setWidth 32) 8 acc := by
        rw [iterate_crcRound_eq_feedBits, shiftRight_byte, BitVec.xor_zero]
    _ = (List.range 8).foldl (fun v j => feedBit (x.getLsbD j) v) acc :=
        List.foldl_ext _ _ _ fun v j hj => by rw [bits j (List.mem_range.mp hj)]

/-- The register fed the bits of the `b` bytes at `a`, byte after byte. -/
theorem crcRange_eq_feedBits (m : Memory) (a b : Nat) (acc : Word) :
    crcRange m a b acc =
      (List.range (8 * b)).foldl (fun v k => feedBit ((m.read (a + k / 8)).getLsbD (k % 8)) v) acc := by
  rw [crcRange_eq_foldl]
  induction b with
  | zero => rfl
  | succ b ih =>
    rw [List.range_succ, List.foldl_append, ih, Nat.mul_succ, List.range_add, List.foldl_append, List.foldl_map,
      List.foldl_cons, List.foldl_nil, crcUpdate_eq_feedBits]
    refine List.foldl_ext _ _ _ fun v j hj => ?_
    have hj := List.mem_range.mp hj
    rw [show (8 * b + j) / 8 = b by omega, show (8 * b + j) % 8 = j by omega]

/-! ### CRC32 on a range that completes (rules R77, R79, R80) -/

/-- An empty range, or one in bounds, completes with its CRC. -/
theorem exec_crc32_of_inBuf {s : State} {f : InFlight} (hf : s.inflight = some f)
    (hin : f.b.toNat = 0 ∨ f.a.toNat + f.b.toNat ≤ s.config.bufSize) :
    exec .crc32 s = .next (completeOk (zext64 (crc32 s.buf f.a.toNat f.b.toNat)) s) := by
  rw [exec_inFlight hf, outcomeOf_crc32_of_inBuf hin, complete_ok]
  rfl

/-- Settles O31: the fold over no bytes is its first value. -/
theorem crc32OfTheEmptyRange : Obligations.Crc32OfTheEmptyRange := by
  intro s f hf hb
  have empty : f.b.toNat = 0 := by rw [hb]; rfl
  refine ⟨_, exec_crc32_of_inBuf hf (.inl empty), completedOk_completeOk _ s, ?_⟩
  rw [completeOk_res, empty]
  exact ⟨rfl, by simp [crc32, crcRange, crcInit, zext64]⟩

/-- The first update, from the accumulator's first value. -/
theorem crcUpdate_crcInit (x : Byte) : crcUpdate crcInit x = 0x00FFFFFF#32 ^^^ crcTable (x ^^^ 0xFF) := by
  have index : (crcInit ^^^ x.setWidth 32).extractLsb' 0 8 = x ^^^ 0xFF := by
    rw [BitVec.extractLsb'_xor, BitVec.xor_comm, ← BitVec.setWidth_eq_extractLsb' (by decide)]
    simp [crcInit]
  rw [crcUpdate, index]
  rfl

/-- Settles O32: the range is one update from `crcInit`, and an update is eight bits fed in. -/
theorem crc32OfOneByte : Obligations.Crc32OfOneByte := by
  refine ⟨fun s f x hf hb hin hx => ?range, by decide, crcUpdate_eq_feedBits⟩
  case range =>
    have one : f.b.toNat = 1 := by rw [hb]; rfl
    refine ⟨_, exec_crc32_of_inBuf hf (.inr (by omega)), completedOk_completeOk _ s, resHi_zext64 _, ?_⟩
    rw [completeOk_res, resLo_zext64, one, crc32, crcRange, crcRange, ← hx, crcUpdate_crcInit]

/-- Settles O33: the range's fold is the register fed its bits. -/
theorem crc32RefinesTheBitSerialRegister : Obligations.Crc32RefinesTheBitSerialRegister := by
  intro s f hf hin
  refine ⟨_, exec_crc32_of_inBuf hf hin, completedOk_completeOk _ s, ?_⟩
  rw [completeOk_res, resLo_zext64, crc32, crcRange_eq_feedBits]
  simp only [feedBit_eq_ite]
  rfl

end Sys2Proof.Proofs.CrcRegister

/-! PROOFS. MASK unsigned: the shift count, the low bits under the ceiling, and the unspecified result
(43_bit_mask_builder.md rules R82 to R88). -/

namespace Sys2Proof.Proofs.UnsignedMask

open Sys2Proof Sys2Proof.Machine Sys2Proof.Safety Sys2Proof.Proofs.Swapper

/-! ### The shift count (rules R83, R84) -/

/-- numBytes cancels out of the raw count. -/
theorem maskRawShift_eq (nb bs : Nat) : maskRawShift nb bs = 32 - (bs : Int) := by
  rw [maskRawShift]
  omega

theorem maskShift_eq (nb bs : Nat) : (maskShift nb bs : Int) = (32 - (bs : Int)) % 32 := by
  rw [maskShift, maskRawShift_eq]
  omega

/-- The count and the width `t` of step 2's result are complements in 32. -/
theorem maskShift_add (nb bs : Nat) : maskShift nb bs + ((bs + 31) % 32 + 1) = 32 := by
  have shift := maskShift_eq nb bs
  omega

/-- Step 2 yields the low `t` bits. -/
theorem getLsbD_maskBits (nb bs k : Nat) : (maskBits nb bs).getLsbD k = decide (k < (bs + 31) % 32 + 1) := by
  have complement := maskShift_add nb bs
  have allOnes : (0xFFFFFFFF#32).getLsbD (maskShift nb bs + k) = decide (maskShift nb bs + k < 32) :=
    Nat.testBit_two_pow_sub_one 32 _
  rw [maskBits, BitVec.getLsbD_ushiftRight, allOnes, decide_eq_decide]
  omega

/-- A word whose set bits are the low `n` is `2^n - 1`. -/
theorem toNat_of_lowBits {w : Word} {n : Nat} (hn : n ≤ 32) (h : ∀ k < 32, w.getLsbD k = decide (k < n)) :
    w.toNat = 2 ^ n - 1 := by
  apply Nat.eq_of_testBit_eq; intro k
  rw [Nat.testBit_two_pow_sub_one, ← BitVec.getLsbD]
  by_cases hk : k < 32
  · exact h k hk
  · rw [BitVec.getLsbD_of_ge w k (by omega), eq_comm, decide_eq_false_iff_not]
    omega

/-- Settles O34: the raw count drops numBytes, and step 2's bits are the low `t`. -/
theorem maskShiftCount : Obligations.MaskShiftCount := by
  intro nb bs
  have complement := maskShift_add nb bs
  have width : (maskBits nb bs).toNat = 2 ^ ((bs + 31) % 32 + 1) - 1 :=
    toNat_of_lowBits (by omega) fun k _ => getLsbD_maskBits nb bs k
  exact ⟨maskRawShift_eq nb bs, maskShift_eq nb bs, by omega, width, by omega, by omega⟩

/-! ### A valid numBytes (rules R82, R85, R88) -/

/-- The ceiling of a valid numBytes, written as the low `8 * nb` bits of a word. -/
def ceilingOf (nb : Nat) : Word := BitVec.ofNat 32 (2 ^ (8 * nb) - 1)

theorem maskCeiling_of_valid {nb : Nat} (h : nb = 1 ∨ nb = 2 ∨ nb = 4 ∨ nb = 8) :
    maskCeiling nb = some (ceilingOf nb) := by
  rcases h with rfl | rfl | rfl | rfl <;> decide

theorem maskCeiling_of_invalid {nb : Nat} (h : ¬ (nb = 1 ∨ nb = 2 ∨ nb = 4 ∨ nb = 8)) : maskCeiling nb = none := by
  simp only [not_or] at h
  obtain ⟨h1, h2, h4, h8⟩ := h
  rw [maskCeiling, if_neg h1, if_neg h2, if_neg h4, if_neg h8]

theorem getLsbD_ceilingOf (nb : Nat) {k : Nat} (hk : k < 32) : (ceilingOf nb).getLsbD k = decide (k < 8 * nb) := by
  rw [ceilingOf, BitVec.getLsbD_ofNat, Nat.testBit_two_pow_sub_one, decide_eq_true hk, Bool.true_and]

theorem maskValue_of_valid {nb : Nat} (h : nb = 1 ∨ nb = 2 ∨ nb = 4 ∨ nb = 8) (bs : Nat) (dm : Word) :
    maskValue nb bs true dm = maskBits nb bs &&& ceilingOf nb := by
  rw [maskValue, maskCeiling_of_valid h]
  rfl

/-- The bits of the mask: below the width of step 2 and below the ceiling. -/
theorem getLsbD_mask (nb bs : Nat) {k : Nat} (hk : k < 32) :
    (maskBits nb bs &&& ceilingOf nb).getLsbD k = (decide (k < (bs + 31) % 32 + 1) && decide (k < 8 * nb)) := by
  rw [BitVec.getLsbD_and, getLsbD_maskBits, getLsbD_ceilingOf nb hk]

/-- Where the width of step 2 fits under the ceiling it is the whole mask. -/
theorem toNat_mask {nb bs : Nat} (h : (bs + 31) % 32 + 1 ≤ 8 * nb) :
    (maskBits nb bs &&& ceilingOf nb).toNat = 2 ^ ((bs + 31) % 32 + 1) - 1 := by
  refine toNat_of_lowBits (by omega) fun k hk => ?_
  rw [getLsbD_mask nb bs hk, ← Bool.decide_and, decide_eq_decide]
  omega

/-- With a valid numBytes MASK completes with the mask in RESLO and takes no draw. -/
theorem exec_mask_of_valid {s : State} {f : InFlight} {nb : Nat} (hf : s.inflight = some f)
    (h : nb = 1 ∨ nb = 2 ∨ nb = 4 ∨ nb = 8) (bs : Nat) :
    ∃ t, exec (.mask nb bs true) s = .next t ∧ completedOk s t ∧ t.draws = s.draws ∧ resHi t.res = 0 ∧
      resLo t.res = maskBits nb bs &&& ceilingOf nb := by
  refine exec_completes_with_word hf ?outcome ?draw
  case outcome => rw [outcomeOf, maskValue_of_valid h]
  case draw => rw [drawOf, takeDraw, maskDraws, maskCeiling_of_valid h]; rfl

/-- Settles O35: the mask's bits, and the two ranges of bs in which they are `2^t - 1`. -/
theorem maskUnsignedValidNumBytes : Obligations.MaskUnsignedValidNumBytes := by
  refine ⟨fun s f nb bs hf hnb => ?_, fun dm => ⟨rfl, rfl, rfl, rfl⟩⟩
  obtain ⟨t, hexec, hdone, hdraws, hhi, hlo⟩ := exec_mask_of_valid hf hnb bs
  refine ⟨t, hexec, hdone, hdraws, hhi, fun k hk => ?bits, fun hpos hle h32 => ?upTo32, fun h8 hlow hhigh => ?upTo64⟩
  case bits => rw [hlo, getLsbD_mask nb bs hk]
  case upTo32 =>
    have width : (bs + 31) % 32 + 1 = bs := by omega
    rw [hlo, toNat_mask (width.le.trans hle), width]
  case upTo64 =>
    have width : (bs + 31) % 32 + 1 = bs - 32 := by omega
    rw [hlo, toNat_mask (by omega), width]

/-! ### Another numBytes (rule R87) -/

theorem maskValue_of_invalid {nb : Nat} (h : ¬ (nb = 1 ∨ nb = 2 ∨ nb = 4 ∨ nb = 8)) (bs : Nat) (dm : Word) :
    maskValue nb bs true dm = dm := by
  rw [maskValue, maskCeiling_of_invalid h]
  rfl

theorem takeDraw_of_invalid {nb : Nat} (h : ¬ (nb = 1 ∨ nb = 2 ∨ nb = 4 ∨ nb = 8)) (s : State) :
    takeDraw nb true s = { s with draws := s.draws + 1 } := by
  rw [takeDraw, maskDraws, maskCeiling_of_invalid h]
  rfl

/-- Settles O37: the outcome is the draw, taken before the completion. -/
theorem maskUnspecifiedNumBytesDraws : Obligations.MaskUnspecifiedNumBytesDraws := by
  intro s f nb bs hf hnb
  refine ⟨completeOk (zext64 (Config.maskDraw s.draws)) { s with draws := s.draws + 1 }, ?_,
    completedOk_completeOk _ { s with draws := s.draws + 1 }, resHi_zext64 _, resLo_zext64 _, rfl⟩
  rw [exec_inFlight hf, outcomeOf, maskValue_of_invalid hnb, complete_ok, drawOf, takeDraw_of_invalid hnb]

end Sys2Proof.Proofs.UnsignedMask

/-! PROOFS. Completion, reset and the step: the frame and the inputs of a completion, what a reset sets, and which turn
a step takes (10_state.md rules R29 to R33, 60_exceptions.md rules R94, R102). -/

namespace Sys2Proof.Proofs.Steps

open Sys2Proof Sys2Proof.Machine Sys2Proof.Safety Sys2Proof.Proofs.Registers Sys2Proof.Proofs.Exceptions
  Sys2Proof.Proofs.HostActions Sys2Proof.Proofs.CrcEngine

/-! ### The frame of a completion (rule R30) -/

theorem completionFrame_complete (o : Except ErrCode DWord) (s : State) : completionFrame s (complete o s) := by
  cases o <;> simp [completionFrame]

/-- The frame does not hold the draw index, so a draw taken before the completion stays inside it. -/
theorem completionFrame_of_drawn {s t : State} (n : Nat) (h : completionFrame { s with draws := n } t) :
    completionFrame s t := h

/-- A decoded command that raises an error takes no draw. -/
theorem drawOf_of_error {i : Instr} {f : InFlight} {s : State} {e : ErrCode} (he : outcomeOf i f s = .error e) :
    drawOf i s = s := by
  obtain ⟨-, ⟨rfl, -⟩ | ⟨rfl, -⟩⟩ := outcomeOf_eq_error_iff.mp he
  · rfl
  · rfl

/-- Settles O38: the frame is that of `complete` after a draw, and the only error is OOB, which draws nothing. -/
theorem everyCommandCompletesWithinItsFrame : Obligations.EveryCommandCompletesWithinItsFrame := by
  intro i s f hf
  refine ⟨_, exec_inFlight hf i, ?frame, ?fields, ?err⟩
  case frame =>
    have frame := completionFrame_complete (outcomeOf i f s) (drawOf i s)
    rw [drawOf_eq] at frame ⊢
    exact completionFrame_of_drawn _ frame
  case fields => rw [drawOf_eq i s, complete_eq]
  case err =>
    rw [complete_err]
    cases ho : outcomeOf i f s with
    | ok r => exact .inl rfl
    | error e =>
      obtain ⟨rfl, -⟩ := outcomeOf_eq_error_iff.mp ho
      rw [drawOf_of_error ho]
      exact .inr ⟨rfl, rfl, rfl⟩

/-- The unit's turn with a command in flight stays within the frame. -/
theorem unitTurn_completes {s : State} {f : InFlight} (hf : s.inflight = some f) :
    ∃ t, unitTurn s = .next t ∧ completionFrame s t := by
  refine ⟨_, unitTurn_inFlight hf, ?_⟩
  have frame := completionFrame_complete (wordOutcome f.cmd f s) (wordDraw f.cmd s)
  rw [wordDraw_eq] at frame ⊢
  exact completionFrame_of_drawn _ frame

/-! ### The inputs of a completion (rule R31) -/

section Inputs

variable {m m' : Memory} (h : ∀ a, m.read a = m'.read a)
include h

theorem memRead_congr (addr n : Nat) : memRead m addr n = memRead m' addr n := by
  induction n with
  | zero => rfl
  | succ n ih => rw [memRead, memRead, ih, h]

theorem crc32_congr (a b : Nat) : crc32 m a b = crc32 m' a b := by
  simp only [crc32_eq_compl_foldl, h]

end Inputs

theorem inBuf_congr {c c' : Config} (h : c.bufSize = c'.bufSize) (a n : Nat) : inBuf c a n = inBuf c' a n := by
  rw [inBuf, inBuf, h]

/-- The outcome reads BUF byte by byte, so it does not see how the bytes are listed. -/
theorem wordOutcome_congr_of_read {s s' : State} (c : Word) (f : InFlight)
    (hread : ∀ a, s.buf.read a = s'.buf.read a) (hsize : s.config.bufSize = s'.config.bufSize)
    (hdraw : Config.maskDraw s.draws = Config.maskDraw s'.draws) : wordOutcome c f s = wordOutcome c f s' := by
  cases hd : decode c with
  | illegal why => rw [wordOutcome_of_illegal hd, wordOutcome_of_illegal hd]
  | legal i =>
    rw [wordOutcome_of_legal hd, wordOutcome_of_legal hd]
    cases i with
    | swap32 => rfl
    | swap16 => rfl
    | btd => rw [outcomeOf, outcomeOf, btdOutcome, btdOutcome, inBuf_congr hsize, memRead_congr hread]
    | crc32 => rw [outcomeOf, outcomeOf, crcOutcome, crcOutcome, inBuf_congr hsize, crc32_congr hread]
    | mask nb bs u => simp only [outcomeOf, hdraw]

/-- Settles O41: both completions have the one outcome. -/
theorem executeDependsOnItsInputsAlone : Obligations.ExecuteDependsOnItsInputsAlone := by
  intro s s' f hf hf' hread hsize hdraw
  refine ⟨_, _, unitTurn_inFlight hf, unitTurn_inFlight hf', ?_⟩
  rw [complete_err, complete_err, wordOutcome_congr_of_read f.cmd f hread hsize hdraw]
  refine ⟨rfl, fun hok => ?_⟩
  cases ho : wordOutcome f.cmd f s' with
  | ok r => rfl
  | error e =>
    rw [ho] at hok
    exact absurd hok (errCode_ne_zero e)

/-! ### The turn a step takes (rules R29, R94, R104) -/

/-- Settles O44: the three equations of `nextTurn`. -/
theorem turnsFollowTheSchedule : Obligations.TurnsFollowTheSchedule := by
  refine fun s => ⟨fun who ts ht => by rw [nextTurn, ht], fun ht => ?_⟩
  rw [nextTurn, ht]
  cases s.inflight <;> simp

section Turns

variable {s : State}

theorem step_of_reset (hf : s.hostFault = none) (ht : nextTurn s = .reset) : step s = .next (resetBlock (popTurn s)) := by
  rw [step, takeTurn, hf, ht]

theorem step_of_host (hf : s.hostFault = none) (ht : nextTurn s = .host) : step s = .next (hostTurn (popTurn s)) := by
  rw [step, takeTurn, hf, ht]

theorem step_of_unit (hf : s.hostFault = none) (ht : nextTurn s = .unit) : step s = unitTurn (popTurn s) := by
  rw [step, takeTurn, hf, ht]

theorem unitTurn_of_legal {f : InFlight} {i : Instr} (hi : s.inflight = some f) (hd : decode f.cmd = .legal i) :
    unitTurn s = exec i s := by
  rw [unitTurn_inFlight hi, exec_inFlight hi, wordOutcome_of_legal hd, wordDraw_of_legal hd]

end Turns

/-- Settles O43: one equation of the step per turn. -/
theorem stepRunsTheDecodedCommand : Obligations.StepRunsTheDecodedCommand := by
  intro s hf
  refine ⟨step_of_reset hf, step_of_host hf, fun ht hi => ?idle, fun f i ht hi hd => ?legal,
    fun f why ht hi hd => ?illegal⟩
  case idle => exact (step_of_unit hf ht).trans (unitTurn_idle hi)
  case legal => exact (step_of_unit hf ht).trans (unitTurn_of_legal (s := popTurn s) hi hd)
  case illegal => exact (step_of_unit hf ht).trans (IllegalWords.unitTurn_of_illegal (s := popTurn s) hi hd)

/-- Settles O56: the idle host's turn, on an empty schedule. -/
theorem endedRunStaysEnded : Obligations.EndedRunStaysEnded := by
  intro s ⟨hhost, _, hfault⟩ hturns hinflight
  have turn : nextTurn s = .host := ((turnsFollowTheSchedule s).2 hturns).2.mpr hinflight
  have popped : popTurn s = s := by rw [popTurn, hturns, List.tail_nil, ← hturns]
  rw [step_of_host hfault turn, popped, hostTurn, hhost]

/-! ### What a step answers (rules R99, R102) -/

theorem unitTurn_next (s : State) : ∃ t, unitTurn s = .next t := by
  cases hi : s.inflight with
  | none => exact ⟨s, unitTurn_idle hi⟩
  | some f => exact ⟨_, unitTurn_inFlight hi⟩

/-- With no recorded fault every turn answers a next state. -/
theorem step_next {s : State} (hf : s.hostFault = none) : ∃ t, step s = .next t := by
  cases ht : nextTurn s with
  | host => exact ⟨_, step_of_host hf ht⟩
  | unit => exact step_of_unit hf ht ▸ unitTurn_next _
  | reset => exact ⟨_, step_of_reset hf ht⟩

/-- Settles O47: a recorded fault is what the step answers, and without one there is a next state. -/
theorem stepStopsOnlyOnARecordedFault : Obligations.StepStopsOnlyOnARecordedFault := by
  intro s
  cases hf : s.hostFault with
  | some f =>
    rw [step_of_hostFault hf]
    exact ⟨nofun, fun f' => by rw [Host.Outcome.fault.injEq, Option.some.injEq]⟩
  | none =>
    obtain ⟨t, ht⟩ := step_next hf
    rw [ht]
    exact ⟨nofun, fun f' => iff_of_false nofun nofun⟩

/-! ### Reset (rules R33, R103, R104) -/

theorem regRead_resetWith (c : Config) (m : Memory) (off : Nat) : regRead (State.resetWith c m) off = 0 := by
  simp [regRead, resLo, resHi]

/-- Settles O42: both ways of reset are `resetBlock`, which leaves the host's side. -/
theorem resetSetsEveryBlockValue : Obligations.ResetSetsEveryBlockValue := by
  refine ⟨fun s hf ht => ?turn, fun s rest hh => ?action, fun c m => ?after⟩
  case turn => exact ⟨_, step_of_reset hf ht, rfl, rfl, rfl, rfl, rfl, rfl⟩
  case action => exact hostTurn_act hh nofun
  case after =>
    exact ⟨rfl, rfl, rfl, by simp [statusBusy], by simp [statusErr], by simp [statusDrop],
      by simp [statusReserved], rfl, rfl, regRead_resetWith c m⟩

/-! ### A command placed for the next step -/

theorem decode_of_decodeTableWord {nbits w : Nat} {i : Instr} (h : decodeTableWord nbits w = some i) :
    decode (tableWord nbits w) = .legal i := by
  rw [decodeTableWord] at h
  cases hd : decode (tableWord nbits w) with
  | legal j => rw [hd] at h; cases h; rfl
  | illegal why => rw [hd] at h; cases h

/-- Settles O45: the placed word gives the unit the turn, and its completion is `exec` of the decoded command. -/
theorem fetchedWordRunsNext : Obligations.FetchedWordRunsNext := by
  intro s nbits w i hi
  refine ⟨rfl, rfl, rfl, rfl, ?_⟩
  have hd := decode_of_decodeTableWord hi
  have completes := exec_inFlight (s := popTurn (s.withFetchWord nbits w)) rfl i
  refine ⟨_, ?_, completes⟩
  rw [step_of_unit rfl rfl, unitTurn_of_legal (s := popTurn (s.withFetchWord nbits w)) rfl hd, completes]

/-! ### A CMD write against a completion (rule R94) -/

/-- Settles O46: first the host's turn drops the write, or first the completion ends BUSY and the host's turn then
accepts it. -/
theorem bothOrdersOfWriteAndCompletion : Obligations.BothOrdersOfWriteAndCompletion := by
  intro s f w rest ts hfault hb hi hh
  refine ⟨fun hturns => ?hostFirst, fun hturns => ?unitFirst⟩
  case hostFirst =>
    have turn : nextTurn s = .host := by rw [nextTurn, hturns]
    have dropped : hostTurn (popTurn s) = dropCmd (advanceHost rest (popTurn s)) :=
      (hostTurn_writeCmd (s := popTurn s) hh).trans (cmdWrite_of_busy (s := advanceHost rest (popTurn s)) hb w)
    refine ⟨_, step_of_host hfault turn, ?_⟩
    rw [dropped]
    exact ⟨hi, rfl, by simp⟩
  case unitFirst =>
    have turn : nextTurn s = .unit := by rw [nextTurn, hturns]
    obtain ⟨t, hunit, hbusy, hnone, hopa, hopb, -, -, -, -, hconfig, hhost, hts, -, hnofault⟩ :=
      unitTurn_completes (s := popTurn s) hi
    have tTurn : nextTurn t = .host := by rw [nextTurn, hts, popTurn_turns, hturns]; rfl
    have tHost : t.host = .write (t.config.regBase + 0x00) 4 w :: rest := by rw [hhost, hconfig]; exact hh
    have accepted : hostTurn (popTurn t) = accept w (advanceHost rest (popTurn t)) :=
      (hostTurn_writeCmd (s := popTurn t) tHost).trans (cmdWrite_of_idle (s := advanceHost rest (popTurn t)) hbusy w)
    refine ⟨t, _, (step_of_unit hfault turn).trans hunit, hnone, hhost, step_of_host (hnofault.trans hfault) tTurn, ?_⟩
    rw [accepted]
    exact ⟨by simp [hopa, hopb], rfl, by simp⟩

end Sys2Proof.Proofs.Steps

/-! PROOFS. Which steps change STATUS, RES, OPA, OPB and BUF, and that a slot's value stays between those steps
(10_state.md rules R17 to R23, 20_memory.md rules R36, R45). -/

namespace Sys2Proof.Proofs.Events

open Sys2Proof Sys2Proof.Machine Sys2Proof.Safety Sys2Proof.Proofs.Steps Sys2Proof.Proofs.HostActions

/-! ### The events of a step -/

/-- The block's registers, BUF and the parameters are the same in both states. -/
structure SameBlock (s t : State) : Prop where
  opa : t.opa = s.opa
  opb : t.opb = s.opb
  res : t.res = s.res
  status : t.status = s.status
  buf : t.buf = s.buf
  config : t.config = s.config

theorem SameBlock.refl (s : State) : SameBlock s s := ⟨rfl, rfl, rfl, rfl, rfl, rfl⟩

/-- The host actions that change the block, each with the state after it: a write to CMD, to OPA or to OPB, a store into
BUF while BUSY = 0, and a reset. -/
inductive HostEvent (s : State) : HostAction → State → Prop where
  | cmd (w : Word) : HostEvent s (.write (s.config.regBase + 0x00) 4 w) (cmdWrite w s)
  | opa (v : Word) : HostEvent s (.write (s.config.regBase + 0x04) 4 v) { s with opa := v }
  | opb (v : Word) : HostEvent s (.write (s.config.regBase + 0x08) 4 v) { s with opb := v }
  | store (offset : Nat) (b : Byte) (idle : s.busy = false) (inside : offset < s.config.bufSize) :
      HostEvent s (.storeBuf offset b) { s with buf := s.buf.write offset b }
  | reset : HostEvent s .reset (resetBlock s)

/-- A legal register write is an event at three of the slots, and nothing at the others. -/
theorem regWrite_event (s : State) {addr bytes : Nat} (v : Word) (hlegal : legalAccess s.config addr bytes = true) :
    SameBlock s (regWrite (addr - s.config.regBase) v s) ∨
      HostEvent s (.write addr bytes v) (regWrite (addr - s.config.regBase) v s) := by
  obtain ⟨rfl, hbase, -⟩ := legalAccess_iff.mp hlegal
  obtain ⟨off, rfl⟩ := Nat.exists_eq_add_of_le hbase
  rw [Nat.add_sub_cancel_left]
  by_cases hcmd : off = 0x00
  · subst hcmd; exact .inr (.cmd v)
  by_cases hopa : off = 0x04
  · subst hopa; exact .inr (.opa v)
  by_cases hopb : off = 0x08
  · subst hopb; exact .inr (.opb v)
  have ignored : regWrite off v s = s := by
    rw [regWrite, if_neg (show off ≠ offCmd from hcmd), if_neg (show off ≠ offOpa from hopa),
      if_neg (show off ≠ offOpb from hopb)]
  rw [ignored]
  exact .inl (SameBlock.refl s)

/-- One host action leaves the block alone, or is one of the events. -/
theorem hostAct_event (act : HostAction) (s : State) :
    SameBlock s (hostAct act s) ∨ HostEvent s act (hostAct act s) := by
  rcases hostAct_cases act s with
    e | ⟨f, e⟩ | ⟨_, _, -, v, e⟩ | ⟨addr, bytes, v, rfl, hlegal, -, e⟩ | ⟨off, b, rfl, idle, inside, e⟩ | ⟨rfl, e⟩ <;> rw [e]
  · exact .inl (SameBlock.refl s)
  · exact .inl ⟨rfl, rfl, rfl, rfl, rfl, rfl⟩
  · exact .inl ⟨rfl, rfl, rfl, rfl, rfl, rfl⟩
  · exact regWrite_event s v hlegal
  · exact .inr (.store off b idle inside)
  · exact .inr .reset

/-- What a step that answers `t` did to the block. -/
inductive StepEvent (s t : State) : Prop where
  | quiet (same : SameBlock s t)
  | reset (turn : nextTurn s = .reset) (after : t = resetBlock (popTurn s))
  | host (turn : nextTurn s = .host) (act : HostAction) (rest : List HostAction) (next : s.host = act :: rest)
      (event : HostEvent (advanceHost rest (popTurn s)) act t)
  | completion (turn : nextTurn s = .unit) (f : InFlight) (inflight : s.inflight = some f)
      (after : t = complete (wordOutcome f.cmd f (popTurn s)) (wordDraw f.cmd (popTurn s)))

/-- The one inversion of `step` that the rules below use. -/
theorem step_event {s t : State} (h : step s = .next t) : StepEvent s t := by
  obtain ⟨-, ⟨turn, rfl⟩ | ⟨turn, rfl⟩ | ⟨-, -, rfl⟩ | ⟨turn, f, hi, rfl⟩⟩ := step_cases h
  · exact .reset turn rfl
  · rcases hostTurn_cases (popTurn s) with ⟨e, -⟩ | ⟨act, rest, hh, -, e⟩ <;> rw [e]
    · exact .quiet ⟨rfl, rfl, rfl, rfl, rfl, rfl⟩
    · rcases hostAct_event act (advanceHost rest (popTurn s)) with ⟨hopa, hopb, hres, hst, hbuf, hc⟩ | event
      · exact .quiet ⟨hopa, hopb, hres, hst, hbuf, hc⟩
      · exact .host turn act rest hh event
  · exact .quiet ⟨rfl, rfl, rfl, rfl, rfl, rfl⟩
  · exact .completion turn f hi rfl

/-! ### What an event leaves alone -/

/-- A CMD write touches STATUS and INFLIGHT alone. -/
theorem cmdWrite_eq (w : Word) (s : State) :
    cmdWrite w s = { s with status := (cmdWrite w s).status, inflight := (cmdWrite w s).inflight } := by
  cases hb : s.busy with
  | true => rw [Registers.cmdWrite_of_busy hb]; rfl
  | false => rw [Registers.cmdWrite_of_idle hb]; rfl

/-- A completion touches RES, STATUS, INFLIGHT and the draw index alone. -/
theorem completion_eq (o : Except ErrCode DWord) (c : Word) (s : State) :
    complete o (wordDraw c s) =
      { s with
        res := (complete o (wordDraw c s)).res, status := (complete o (wordDraw c s)).status, inflight := none,
        draws := (wordDraw c s).draws } := by
  rw [complete_eq, wordDraw_eq]

/-- A completion that changes RES has succeeded. -/
theorem err_zero_of_res_ne {o : Except ErrCode DWord} {c : Word} {s : State}
    (h : (complete o (wordDraw c s)).res ≠ s.res) : statusErr (complete o (wordDraw c s)).status = 0x0 := by
  cases o with
  | ok r => rw [complete_err, outcomeErr]
  | error e =>
    rw [complete_error, raiseErr_res, wordDraw_eq] at h
    exact absurd rfl h

/-! ### The statements -/

/-- Settles O48: of the events, an OPA or OPB write and a store leave STATUS alone. -/
theorem statusChangesOnlyAtItsEvents : Obligations.StatusChangesOnlyAtItsEvents := by
  intro s t h hne
  cases step_event h with
  | quiet same => exact absurd same.status hne
  | reset turn after => exact .inl turn
  | host turn act rest next event =>
    cases event with
    | cmd w => exact .inr (.inl ⟨turn, _, rest, next, .inr ⟨w, rfl⟩⟩)
    | opa v => exact absurd rfl hne
    | opb v => exact absurd rfl hne
    | store offset b idle inside => exact absurd rfl hne
    | reset => exact .inr (.inl ⟨turn, _, rest, next, .inl rfl⟩)
  | completion turn f inflight after => exact .inr (.inr ⟨turn, by simp [inflight]⟩)

/-- Settles O49: only a reset and a completion touch RES, and a completion with an error does not. -/
theorem resultChangesOnlyAtSuccess : Obligations.ResultChangesOnlyAtSuccess := by
  intro s t h hne
  cases step_event h with
  | quiet same => exact absurd same.res hne
  | reset turn after => exact .inl turn
  | host turn act rest next event =>
    cases event with
    | cmd w => rw [cmdWrite_eq] at hne; exact absurd rfl hne
    | opa v => exact absurd rfl hne
    | opb v => exact absurd rfl hne
    | store offset b idle inside => exact absurd rfl hne
    | reset => exact .inr (.inl ⟨turn, rest, next⟩)
  | completion turn f inflight after =>
    subst after
    exact .inr (.inr ⟨turn, by simp [inflight], err_zero_of_res_ne (s := popTurn s) hne⟩)

/-- Settles O50: only a reset and the host's write to the register touch it. -/
theorem operandsChangeOnlyByTheHostOrReset : Obligations.OperandsChangeOnlyByTheHostOrReset := by
  intro s t h hne
  cases step_event h with
  | quiet same => exact absurd hne (by simp [same.opa, same.opb])
  | reset turn after => exact .inl turn
  | host turn act rest next event =>
    cases event with
    | cmd w => rw [cmdWrite_eq] at hne; exact absurd hne (by simp)
    | opa v => exact .inr ⟨turn, _, rest, next, .inr (.inl ⟨v, rfl, rfl, rfl⟩)⟩
    | opb v => exact .inr ⟨turn, _, rest, next, .inr (.inr ⟨v, rfl, rfl, rfl⟩)⟩
    | store offset b idle inside => exact absurd hne (by simp)
    | reset => exact .inr ⟨turn, _, rest, next, .inl rfl⟩
  | completion turn f inflight after =>
    subst after
    rw [completion_eq] at hne
    exact absurd hne (by simp)

/-- Settles O51: of the events only the store touches BUF, and none touches the parameters. -/
theorem bufChangesOnlyByHostStores : Obligations.BufChangesOnlyByHostStores := by
  intro s t h
  cases step_event h with
  | quiet same => exact ⟨same.config, fun hne => absurd same.buf hne⟩
  | reset turn after => subst after; exact ⟨rfl, fun hne => absurd rfl hne⟩
  | host turn act rest next event =>
    cases event with
    | cmd w => rw [cmdWrite_eq]; exact ⟨rfl, fun hne => absurd rfl hne⟩
    | opa v => exact ⟨rfl, fun hne => absurd rfl hne⟩
    | opb v => exact ⟨rfl, fun hne => absurd rfl hne⟩
    | store offset b idle inside => exact ⟨rfl, fun _ => ⟨turn, idle, offset, b, rest, next, inside, rfl⟩⟩
    | reset => exact ⟨rfl, fun hne => absurd rfl hne⟩
  | completion turn f inflight after =>
    subst after
    rw [completion_eq]
    exact ⟨rfl, fun hne => absurd rfl hne⟩

/-! ### Two reads of one slot (rule R23) -/

theorem regRead_congr {s t : State} (hopa : t.opa = s.opa) (hopb : t.opb = s.opb) (hres : t.res = s.res)
    (hst : t.status = s.status) (off : Nat) : regRead t off = regRead s off := by
  rw [regRead, regRead, hopa, hopb, hres, hst]

/-- A step that writes no register leaves every slot's value. -/
theorem regRead_of_step {s t : State} (h : step s = .next t) (hno : stepWritesNoRegister s) (off : Nat) :
    regRead t off = regRead s off := by
  obtain ⟨notReset, noCompletion, harmless⟩ := hno
  cases step_event h with
  | quiet same => exact regRead_congr same.opa same.opb same.res same.status off
  | reset turn after => exact absurd turn notReset
  | host turn act rest next event =>
    have notWrite := harmless act rest turn next
    cases event with
    | cmd w => simp at notWrite
    | opa v => simp at notWrite
    | opb v => simp at notWrite
    | store offset b idle inside => exact regRead_congr rfl rfl rfl rfl off
    | reset => simp at notWrite
  | completion turn f inflight after => exact absurd (inflight.symm.trans (noCompletion turn)) nofun

/-- Settles O57: by induction along the run every state reads the slot as the first one does. -/
theorem readingTwiceReturnsTheSameValue : Obligations.ReadingTwiceReturnsTheSameValue := by
  intro path n off rest rest' hoff h4 hfirst hlast hsteps
  have unchanged : ∀ k ≤ n, regRead (path k) off = regRead (path 0) off := by
    intro k
    induction k with
    | zero => exact fun _ => rfl
    | succ k ih =>
      intro hk
      obtain ⟨hstep, hno⟩ := hsteps k hk
      exact (regRead_of_step hstep hno off).trans (ih (Nat.le_of_succ_le hk))
  refine ⟨regRead (path 0) off, ?_, ?_⟩
  · rw [hostTurn_read hfirst hoff h4]; rfl
  · rw [hostTurn_read hlast hoff h4, unchanged n le_rfl]; rfl

end Sys2Proof.Proofs.Events

/-! PROOFS. No command stays in flight for ever, and an accepted one completes with the result it would have had at once
(10_state.md rules R29, R32, 70_reset_and_hazards.md rules R104, R113). -/

namespace Sys2Proof.Proofs.Liveness

open Sys2Proof Sys2Proof.Machine Sys2Proof.Safety Sys2Proof.Proofs.HostActions Sys2Proof.Proofs.Steps
  Sys2Proof.Proofs.Events

/-! ### Runs -/

/-- A run whose first step answers a next state goes on from it. -/
theorem core_run_succ_of_next {M : Host.Core} {s t : M.State} (h : M.step s = .next t) (k : Nat) :
    M.run (k + 1) s = M.run k t := by
  rw [Host.Core.run, h]

/-- A run whose first step answers a fault ends there. -/
theorem core_run_succ_of_fault {M : Host.Core} {s : M.State} {e : M.Fault} (h : M.step s = .fault e) (k : Nat) :
    M.run (k + 1) s = .fault e := by
  rw [Host.Core.run, h]

theorem run_succ_of_next {s t : State} (h : step s = .next t) (k : Nat) :
    Host.Core.run Sys2Proof.core (k + 1) s = Host.Core.run Sys2Proof.core k t :=
  core_run_succ_of_next (M := Sys2Proof.core) h k

theorem run_succ_of_hostFault {s : State} {e : Fault} (h : s.hostFault = some e) (k : Nat) :
    Host.Core.run Sys2Proof.core (k + 1) s = .fault e :=
  core_run_succ_of_fault (M := Sys2Proof.core) (step_of_hostFault h) k

/-! ### The schedule moves on -/

theorem regWrite_turns (off : Nat) (v : Word) (s : State) : (regWrite off v s).turns = s.turns := by
  rcases regWrite_cases off v s with ⟨-, -, e⟩ | ⟨-, -, e⟩ | ⟨-, e⟩ | ⟨-, e⟩ | ⟨-, -, -, e⟩ <;> rw [e]
  · rfl
  · rfl

theorem hostTurn_turns (s : State) : (hostTurn s).turns = s.turns := by
  rcases hostTurn_cases s with ⟨e, -⟩ | ⟨act, rest, -, -, e⟩
  · rw [e]
  · rw [e]
    rcases hostAct_cases act (advanceHost rest s) with
      e | ⟨_, e⟩ | ⟨_, _, -, _, e⟩ | ⟨_, _, v, -, -, -, e⟩ | ⟨_, _, -, -, -, e⟩ | ⟨-, e⟩ <;> rw [e]
    · rfl
    · rfl
    · rfl
    · exact regWrite_turns _ v _
    · rfl
    · rfl

/-- Every step uses up one turn of the schedule. -/
theorem step_turns {s t : State} (h : step s = .next t) : t.turns = s.turns.tail := by
  obtain ⟨-, ⟨-, rfl⟩ | ⟨-, rfl⟩ | ⟨-, -, rfl⟩ | ⟨-, f, -, rfl⟩⟩ := step_cases h
  · rfl
  · exact hostTurn_turns _
  · rfl
  · rw [completion_eq]; rfl

/-- A step that leaves a command in flight used a turn that the schedule held: past its end the unit completes. -/
theorem turns_ne_nil_of_inflight {s t : State} (h : step s = .next t) (hs : s.inflight ≠ none) (ht : t.inflight ≠ none) :
    s.turns ≠ [] := by
  intro hturns
  have turn : nextTurn s = .unit := ((turnsFollowTheSchedule s).2 hturns).1.mpr hs
  obtain ⟨hfault, -⟩ := step_cases h
  obtain ⟨f, hf⟩ := Option.ne_none_iff_exists'.mp hs
  obtain ⟨u, hu, -, hnone, -⟩ := unitTurn_completes (s := popTurn s) hf
  rw [step_of_unit hfault turn, hu, Host.Outcome.next.injEq] at h
  exact ht (h ▸ hnone)

/-- Settles O55: by induction on the length of the schedule. -/
theorem commandInFlightEndsUnderEverySchedule : Obligations.CommandInFlightEndsUnderEverySchedule := by
  intro s hs
  induction hn : s.turns.length using Nat.strong_induction_on generalizing s with
  | _ n ih =>
    subst hn
    cases hfault : s.hostFault with
    | some e => exact ⟨1, le_rfl, by omega, .inr ⟨e, run_succ_of_hostFault hfault 0⟩⟩
    | none =>
      obtain ⟨t, ht⟩ := step_next hfault
      by_cases hinflight : t.inflight = none
      · exact ⟨1, le_rfl, by omega, .inl ⟨t, run_succ_of_next ht 0, hinflight⟩⟩
      · have oneLess : t.turns.length + 1 = s.turns.length := by
          have nonempty := List.length_pos_of_ne_nil (turns_ne_nil_of_inflight ht hs hinflight)
          rw [step_turns ht, List.length_tail]
          omega
        obtain ⟨k, hlow, hhigh, hrun⟩ := ih _ (by omega) t hinflight rfl
        exact ⟨k + 1, by omega, by omega, by rwa [run_succ_of_next ht]⟩

/-! ### A command waiting for its completion (rules R29, R32) -/

/-- A command in flight waits: BUSY = 1, and no reset lies ahead. -/
structure Waiting (f : InFlight) (s : State) : Prop where
  inflight : s.inflight = some f
  busy : s.busy = true
  turns : Turn.reset ∉ s.turns
  host : HostAction.reset ∉ s.host

/-- The two states agree on RES and on what a completion reads. -/
structure SameInputs (s t : State) : Prop where
  res : t.res = s.res
  buf : t.buf = s.buf
  config : t.config = s.config
  draws : t.draws = s.draws

theorem SameInputs.refl (s : State) : SameInputs s s := ⟨rfl, rfl, rfl, rfl⟩

theorem SameInputs.trans {s t u : State} (h : SameInputs s t) (h' : SameInputs t u) : SameInputs s u :=
  ⟨h'.res.trans h.res, h'.buf.trans h.buf, h'.config.trans h.config, h'.draws.trans h.draws⟩

/-- While a command waits the unit moves, or a turn of the schedule is the host's. -/
theorem Waiting.turn_cases {f : InFlight} {s : State} (hw : Waiting f s) :
    nextTurn s = .unit ∨ (nextTurn s = .host ∧ ∃ ts, s.turns = .host :: ts) := by
  obtain ⟨ahead, pastEnd⟩ := turnsFollowTheSchedule s
  cases hturns : s.turns with
  | nil => exact .inl ((pastEnd hturns).1.mpr (by simp [hw.inflight]))
  | cons who ts =>
    cases who with
    | host => exact .inr ⟨ahead _ ts hturns, ts, rfl⟩
    | unit => exact .inl (ahead _ ts hturns)
    | reset => exact absurd (hturns ▸ List.mem_cons_self) hw.turns

/-- Every action the host still has is one with a meaning while BUSY = 1, and none without has been recorded. -/
def Harmless (s : State) : Prop := s.hostFault = none ∧ ∀ act ∈ s.host, actionHasMeaningWhileBusy s.config act

/-- A legal register write records no fault. -/
theorem regWrite_hostFault (off : Nat) (v : Word) (s : State) : (regWrite off v s).hostFault = s.hostFault := by
  rcases regWrite_cases off v s with ⟨-, -, e⟩ | ⟨-, -, e⟩ | ⟨-, e⟩ | ⟨-, e⟩ | ⟨-, -, -, e⟩ <;> rw [e]
  · rfl
  · rfl

/-- An action with a meaning records no fault. -/
theorem hostTurn_hostFault_of_meaning {s : State}
    (h : ∀ act ∈ s.host, actionHasMeaningWhileBusy s.config act) : (hostTurn s).hostFault = s.hostFault := by
  rcases hostTurn_cases s with ⟨e, -⟩ | ⟨act, rest, hh, -, e⟩
  · rw [e]
  · have meaning : actionHasMeaningWhileBusy s.config act := h act (by simp [hh])
    obtain rfl | ⟨off, hoff, h4, rfl | ⟨v, rfl⟩⟩ := meaning
    · rw [e]; rfl
    · rw [hostTurn_read hh hoff h4]; rfl
    · rw [hostTurn_write hh hoff h4, regWrite_hostFault]; rfl

section HostStep

variable {f : InFlight} {s : State} (hw : Waiting f s) (hf : s.hostFault = none) (ht : nextTurn s = .host)
include hw hf ht

/-- The host's turn leaves the command waiting with the inputs it had. -/
theorem waiting_of_host_step :
    ∃ t, step s = .next t ∧ Waiting f t ∧ SameInputs s t ∧ t.turns = s.turns.tail ∧ (Harmless s → Harmless t) := by
  obtain ⟨busy, inflight, res, buf, config, draws, turns, suffix⟩ :=
    hostTurn_whileBusy (s := popTurn s) hw.busy hw.host
  refine ⟨_, step_of_host hf ht, ⟨inflight.trans hw.inflight, busy, ?_, fun h => hw.host (suffix.subset h)⟩,
    ⟨res, buf, config, draws⟩, turns, fun ⟨hnone, hmeaning⟩ => ⟨?_, fun act hact => ?_⟩⟩
  · rw [turns]; exact fun h => hw.turns (List.mem_of_mem_tail h)
  · rw [hostTurn_hostFault_of_meaning (s := popTurn s) hmeaning]; exact hnone
  · rw [config]; exact hmeaning act (suffix.subset hact)

end HostStep

/-- Along the schedule the command waits until the unit's turn, or a recorded fault stops the run. -/
theorem run_reaches_completion {f : InFlight} {s : State} (hw : Waiting f s) :
    ∃ k, k ≤ s.turns.length ∧
      ((∃ e, Host.Core.run Sys2Proof.core (k + 1) s = .fault e ∧ ¬ Harmless s) ∨
        ∃ t, Host.Core.run Sys2Proof.core k s = .next t ∧ Waiting f t ∧ SameInputs s t ∧ t.hostFault = none ∧
          nextTurn t = .unit) := by
  induction hn : s.turns.length using Nat.strong_induction_on generalizing s with
  | _ n ih =>
    subst hn
    cases hfault : s.hostFault with
    | some e =>
      exact ⟨0, Nat.zero_le _, .inl ⟨e, run_succ_of_hostFault hfault 0, fun h => absurd (hfault.symm.trans h.1) nofun⟩⟩
    | none =>
      rcases hw.turn_cases with turn | ⟨turn, ts, hturns⟩
      · exact ⟨0, Nat.zero_le _, .inr ⟨s, rfl, hw, SameInputs.refl s, hfault, turn⟩⟩
      · obtain ⟨t, hstep, hwt, same, htail, harmless⟩ := waiting_of_host_step hw hfault turn
        have oneLess : t.turns.length + 1 = s.turns.length := by rw [htail, hturns]; rfl
        obtain ⟨k, hk, hrun⟩ := ih _ (by omega) hwt rfl
        refine ⟨k + 1, by omega, ?_⟩
        rw [run_succ_of_next hstep, run_succ_of_next hstep]
        rcases hrun with ⟨e, hrun, hnot⟩ | ⟨u, hrun, hwu, same', hu⟩
        · exact .inl ⟨e, hrun, fun h => hnot (harmless h)⟩
        · exact .inr ⟨u, hrun, hwu, same.trans same', hu⟩

/-- States that agree on a completion's inputs complete with the same RES and the same ERR. -/
theorem unitTurn_of_sameInputs {f : InFlight} {s t : State} (hs : s.inflight = some f) (ht : t.inflight = some f)
    (same : SameInputs s t) :
    ∃ w u, unitTurn s = .next w ∧ unitTurn t = .next u ∧ u.res = w.res ∧ statusErr u.status = statusErr w.status := by
  have outcome : wordOutcome f.cmd f t = wordOutcome f.cmd f s :=
    wordOutcome_congr f.cmd f same.buf (by rw [same.config]) (by rw [same.draws])
  refine ⟨_, _, unitTurn_inFlight hs, unitTurn_inFlight ht, ?_, by rw [complete_err, complete_err, outcome]⟩
  rw [outcome]
  cases wordOutcome f.cmd f s with
  | ok r => rfl
  | error e =>
    rw [complete_error, complete_error, raiseErr_res, raiseErr_res, wordDraw_eq f.cmd s, wordDraw_eq f.cmd t]
    exact same.res

/-- Settles O58: the run reaches the unit's turn with the inputs unchanged, so the completion is the one it would have
been at once. -/
theorem everyAcceptedCommandCompletes : Obligations.EveryAcceptedCommandCompletes := by
  intro s f hi hb hturns hhost
  obtain ⟨k, hk, ⟨e, hrun, hnot⟩ | ⟨t, hrun, hw, same, hfault, turn⟩⟩ :=
    run_reaches_completion ⟨hi, hb, hturns, hhost⟩
  · exact ⟨k, hk, .inl ⟨e, hrun, hnot⟩⟩
  · obtain ⟨w, u, hnow, hlater, hres, herr⟩ := unitTurn_of_sameInputs (t := popTurn t) hi hw.inflight
      ⟨same.res, same.buf, same.config, same.draws⟩
    obtain ⟨u', hcompletes, hbusy, hnone, -⟩ := unitTurn_completes (s := popTurn t) hw.inflight
    obtain rfl : u = u' := Host.Outcome.next.inj (hlater.symm.trans hcompletes)
    exact ⟨k, hk, .inr ⟨t, u, w, hrun, hw.inflight, hw.busy, same.res, turn, (step_of_unit hfault turn).trans hlater,
      hlater, hnone, hbusy, hnow, hres, herr⟩⟩

end Sys2Proof.Proofs.Liveness
